-- ==== Sys2Proof/Word.lean ====
section
/-! DEFINITION. The word types of the CBE (00_scope.md R8, R9): every one is a bit vector the spec treats as bits. -/

namespace Sys2Proof

/-- One storage byte (20_memory.md R38). -/
abbrev Byte := BitVec 8

/-- One 128-bit command word (30_encoding.md R55). -/
abbrev CmdWord := BitVec 128

/-- A 64-bit value: digest, bucket index, COUNT, FINFO, response value (00_scope.md R8, 30_encoding.md R58). -/
abbrev Value := BitVec 64

end Sys2Proof
end

