-- ==== Sys2Proof/Config.lean ====
section
/-! DEFINITION. What is fixed for an instance of the CBE (00_scope.md R6, R8), and the values the spec leaves open. -/

namespace Sys2Proof

/-- The configuration values of one instance (00_scope.md R6, widths of 10_state.md R22) and the two bounds the
spec leaves OPEN as arguments of the model (R8). Every statement about all states is thereby about all configurations. -/
structure Config where
  /-- The bucket count, also the capacity. -/
  m : Value
  /-- The number of hash rounds. -/
  k : Value
  /-- The bucket width in bits. -/
  b : BitVec 4
  /-- `M_MAX`, the largest legal `m` of the implementation. -/
  mMax : Value
  /-- `K_MAX`, the largest legal `k` of the implementation. -/
  kMax : Value
deriving DecidableEq, Repr

/-- The running example configuration `(16, 3, 4)` of 41_filter_membership.md, with the widest bounds R8 allows
(DESIGN CHOICE, unsafe, log 1 and log 2: the configuration `State.reset` stands for). -/
def Config.example16 : Config :=
  { m := 16, k := 3, b := 4, mMax := 0xFFFFFFFFFFFFFFFF, kMax := 0x100000000 }

/-- The host's hash kernel `HASH`, bytes to a 64-bit digest, OPEN in the spec (R8; 92_eei_decisions.md D31).
No body: nothing can be proved of its values (log 7, safe). -/
opaque Config.hash : List Byte → Value

/-- What entry `i` of the scratch buffer holds between commands, when its contents were last made unspecified at era
`n` (10_state.md R30; 93_implementation_defined.md I11: any value). No body: a free value (log 4, safe). -/
opaque Config.scratchResidue : Nat → Nat → Value

end Sys2Proof
end

