-- ==== Sys2Proof/Syntax.lean ====
section
/-! DEFINITION. The command set of the CBE: opcodes, formats, instructions, pseudo-instructions and assembler lines
(30_encoding.md R56, R61, R68, R70, R71). -/

namespace Sys2Proof

/-- The opcodes of 30_encoding.md R61, one name per row of spec/opcode_table.json. -/
inductive Opcode where
  | test | add | testadd | testrem | reset | cap | krd | cnt | bget | binc | breset | rdstat | rdfinfo
deriving DecidableEq, Repr

/-- The four formats of 30_encoding.md R56. -/
inductive Format where
  /-- No operand. -/
  | n
  /-- A digest. -/
  | d
  /-- A bucket index. -/
  | i
  /-- A bucket index and a signed delta. -/
  | id
deriving DecidableEq, Repr

/-- One command with its operands (30_encoding.md R56, R57), one constructor per row of spec/opcode_table.json. -/
inductive Instr where
  /-- TEST, membership test (R95). -/
  | test (dig : Value)
  /-- ADD, saturating increments and count (R96). -/
  | add (dig : Value)
  /-- TESTADD, test then add (R97). -/
  | testadd (dig : Value)
  /-- TESTREM, test and remove, all or nothing (R98). -/
  | testrem (dig : Value)
  /-- RESET, empty the filter (R99). -/
  | reset
  /-- CAP, read `m` (R114). -/
  | cap
  /-- KRD, read `k` (R115). -/
  | krd
  /-- CNT, read COUNT (R116). -/
  | cnt
  /-- BGET, read one bucket (R80). -/
  | bget (idx : Value)
  /-- BINC, add a signed delta to one bucket (R81). -/
  | binc (idx : Value) (delta : BitVec 32)
  /-- BRESET, zero every bucket (R84). -/
  | breset
  /-- RDSTAT, read the status word (R117). -/
  | rdstat
  /-- RDFINFO, read FINFO (R118). -/
  | rdfinfo
deriving DecidableEq, Repr

/-- The pseudo-instructions of 30_encoding.md R70 and R71. -/
inductive Pseudo where
  /-- `BDEC idx`. -/
  | bdec (idx : Value)
  /-- `TESTE x`. -/
  | teste (x : List Byte)
  /-- `ADDE x`. -/
  | adde (x : List Byte)
  /-- `TESTADDE x`. -/
  | testadde (x : List Byte)
  /-- `TESTREME x`. -/
  | testreme (x : List Byte)
deriving DecidableEq, Repr

/-- The mnemonics an assembler line may begin with: the opcodes and the pseudo-instructions. -/
inductive Mnemonic where
  | core (o : Opcode)
  | bdec | teste | adde | testadde | testreme
deriving DecidableEq, Repr

/-- An operand as written in assembler text: a number, or a quoted byte string (30_encoding.md R68, R71). -/
inductive SrcOperand where
  | num (v : Int)
  | bytes (x : List Byte)
deriving DecidableEq, Repr

/-- One assembler line before its operands are checked (30_encoding.md R68). -/
structure SrcLine where
  mnemonic : Mnemonic
  operands : List SrcOperand
deriving DecidableEq, Repr

/-- What one assembler line stands for: a command or a pseudo-instruction. -/
inductive AsmItem where
  | instr (i : Instr)
  | pseudo (p : Pseudo)
deriving DecidableEq, Repr

end Sys2Proof
end

