-- ==== Sys2Proof/WellFormed.lean ====
section
/-! DEFINITION. Well-formedness: the construction check of 60_exceptions.md R131, and the operand ranges of assembler
lines (30_encoding.md R68). The operands of an `Instr` have their exact widths, so every `Instr` is well formed. -/

namespace Sys2Proof

/-- The bounds an implementation may choose (00_scope.md R8): `1 <= M_MAX <= 2^64 - 1` and `1 <= K_MAX <= 2^32`. -/
abbrev Config.boundsLegal (c : Config) : Prop :=
  1 ≤ c.mMax.toNat ∧ c.mMax.toNat ≤ 2 ^ 64 - 1 ∧ 1 ≤ c.kMax.toNat ∧ c.kMax.toNat ≤ 2 ^ 32

/-- A legal configuration (00_scope.md R6; the negation of 60_exceptions.md R131's InvalidConfiguration), on an
implementation whose bounds are legal. -/
abbrev Config.legal (c : Config) : Prop :=
  c.boundsLegal ∧
  (1 ≤ c.m.toNat ∧ c.m.toNat ≤ c.mMax.toNat) ∧
  (1 ≤ c.k.toNat ∧ c.k.toNat ≤ c.kMax.toNat) ∧
  (1 ≤ c.b.toNat ∧ c.b.toNat ≤ 8)

/-- The range of a digest or index operand in assembler text (30_encoding.md R68). -/
abbrev inRange64 (v : Int) : Prop := 0 ≤ v ∧ v < 2 ^ 64

/-- The range of a delta operand in assembler text (30_encoding.md R68). -/
abbrev inRangeDelta (v : Int) : Prop := -2 ^ 31 ≤ v ∧ v ≤ 2 ^ 31 - 1

/-- The operands a mnemonic takes, each in its range (30_encoding.md R68, R70, R71). -/
def SrcLine.wf (l : SrcLine) : Bool :=
  match l.mnemonic, l.operands with
  | .core .test, [.num v] => decide (inRange64 v)
  | .core .add, [.num v] => decide (inRange64 v)
  | .core .testadd, [.num v] => decide (inRange64 v)
  | .core .testrem, [.num v] => decide (inRange64 v)
  | .core .bget, [.num v] => decide (inRange64 v)
  | .core .binc, [.num v, .num d] => decide (inRange64 v) && decide (inRangeDelta d)
  | .core .reset, [] => true
  | .core .cap, [] => true
  | .core .krd, [] => true
  | .core .cnt, [] => true
  | .core .breset, [] => true
  | .core .rdstat, [] => true
  | .core .rdfinfo, [] => true
  | .bdec, [.num v] => decide (inRange64 v)
  | .teste, [.bytes _] => true
  | .adde, [.bytes _] => true
  | .testadde, [.bytes _] => true
  | .testreme, [.bytes _] => true
  | _, _ => false

end Sys2Proof
end

