-- ==== Sys2Proof/Decode.lean ====
section
/-! DEFINITION. Decoding a command word, and encoding a command (30_encoding.md R55 to R57, R61 to R66). -/

namespace Sys2Proof

/-- Why a word (or a run of bytes) is no command. -/
inductive DecodeError where
  /-- The opcode is not in the table of R61 (R63). -/
  | unlistedOpcode (op : BitVec 8)
  /-- The opcode is listed and a reserved bit is not zero (R64). -/
  | reservedBits (op : BitVec 8)
  /-- Fewer than the 16 bytes of a command word (R55, R66; transport of R45). -/
  | truncated
deriving DecidableEq, Repr

/-- Every row of the opcode map, in the table's order (R61). -/
def Opcode.all : List Opcode :=
  [.test, .add, .testadd, .testrem, .reset, .cap, .krd, .cnt, .bget, .binc, .breset, .rdstat, .rdfinfo]

/-- The `op` value of a row (R61). -/
def Opcode.code : Opcode → BitVec 8
  | .test => 0x01
  | .add => 0x02
  | .testadd => 0x03
  | .testrem => 0x04
  | .reset => 0x05
  | .cap => 0x06
  | .krd => 0x07
  | .cnt => 0x08
  | .bget => 0x10
  | .binc => 0x11
  | .breset => 0x12
  | .rdstat => 0x20
  | .rdfinfo => 0x21

/-- The format of a row (R61). -/
def Opcode.format : Opcode → Format
  | .test | .add | .testadd | .testrem => .d
  | .bget => .i
  | .binc => .id
  | .reset | .cap | .krd | .cnt | .breset | .rdstat | .rdfinfo => .n

/-- The fixed bits of a format: the opcode and the reserved bits (R61, "Match and mask per command"). -/
def Format.mask : Format → CmdWord
  | .n => 0xFFFFFFFFFFFFFFFFFFFFFFFFFFFFFFFF
  | .d => 0x0000000000000000FFFFFFFFFFFFFFFF
  | .i => 0x0000000000000000FFFFFFFFFFFFFFFF
  | .id => 0x000000000000000000000000FFFFFFFF

/-- What the fixed bits of a row hold: the opcode in bits 7:0, zero elsewhere (R61). -/
def Opcode.matchBits (o : Opcode) : CmdWord := o.code.setWidth 128

/-- `op = cmd[7:0]` (R55). -/
def opOf (w : CmdWord) : BitVec 8 := w.extractLsb' 0 8

/-- `DIG = cmd[127:64]` and `IDX = cmd[127:64]` (R56). -/
def operand64 (w : CmdWord) : Value := w.extractLsb' 64 64

/-- `DELTA = cmd[63:32]` (R56). -/
def operandDelta (w : CmdWord) : BitVec 32 := w.extractLsb' 32 32

/-- The row of the opcode map with a given `op`, if any (R61). -/
def Opcode.ofByte (op : BitVec 8) : Option Opcode := Opcode.all.find? (fun o => o.code == op)

/-- The command of a row with the operand fields of a word (R56, R57). -/
def Instr.ofFields (o : Opcode) (w : CmdWord) : Instr :=
  match o with
  | .test => .test (operand64 w)
  | .add => .add (operand64 w)
  | .testadd => .testadd (operand64 w)
  | .testrem => .testrem (operand64 w)
  | .reset => .reset
  | .cap => .cap
  | .krd => .krd
  | .cnt => .cnt
  | .bget => .bget (operand64 w)
  | .binc => .binc (operand64 w) (operandDelta w)
  | .breset => .breset
  | .rdstat => .rdstat
  | .rdfinfo => .rdfinfo

/-- Decode a command word: the opcode first, then the reserved bits (R62 to R64). -/
def decode (w : CmdWord) : Except DecodeError Instr :=
  match Opcode.ofByte (opOf w) with
  | none => .error (.unlistedOpcode (opOf w))
  | some o =>
    if w &&& o.format.mask = o.matchBits then .ok (Instr.ofFields o w) else .error (.reservedBits (opOf w))

/-- A word from its bytes on a byte transport, byte 0 being bits 7:0 (20_memory.md R45). -/
def wordOfBytes : List Byte → Nat
  | [] => 0
  | x :: xs => x.toNat + 256 * wordOfBytes xs

/-- The `n` low bytes of a number, byte 0 being bits 7:0 (20_memory.md R45). -/
def bytesOfNat : Nat → Nat → List Byte
  | 0, _ => []
  | n + 1, v => BitVec.ofNat 8 v :: bytesOfNat n (v / 256)

/-- Decode the first 16 bytes of a byte transport, with the bytes after them (20_memory.md R45, R66). -/
def decodeBytes (xs : List Byte) : Except DecodeError (Instr × List Byte) :=
  if xs.length < 16 then .error .truncated
  else match decode (BitVec.ofNat 128 (wordOfBytes (xs.take 16))) with
    | .error e => .error e
    | .ok i => .ok (i, xs.drop 16)

/-- The instruction this decoder reads from the table's bits `w` of a row of `nbits` bits: bit 0 is bit 0 of the
command word, and the bits above `nbits` are zero. The bits go through the byte transport's order (R45). -/
def decodeTableWord (nbits w : Nat) : Option Instr :=
  match decodeBytes (bytesOfNat 16 (w % 2 ^ nbits)) with
  | .ok (i, _) => some i
  | .error _ => none

/-- The opcode of a command (R61). -/
def Instr.opcode : Instr → Opcode
  | .test _ => .test
  | .add _ => .add
  | .testadd _ => .testadd
  | .testrem _ => .testrem
  | .reset => .reset
  | .cap => .cap
  | .krd => .krd
  | .cnt => .cnt
  | .bget _ => .bget
  | .binc _ _ => .binc
  | .breset => .breset
  | .rdstat => .rdstat
  | .rdfinfo => .rdfinfo

/-- What a command carries in `cmd[127:64]` (R56). -/
def Instr.high64 : Instr → Value
  | .test dig => dig
  | .add dig => dig
  | .testadd dig => dig
  | .testrem dig => dig
  | .bget idx => idx
  | .binc idx _ => idx
  | .reset | .cap | .krd | .cnt | .breset | .rdstat | .rdfinfo => 0

/-- What a command carries in `cmd[63:32]` (R56). -/
def Instr.middle32 : Instr → BitVec 32
  | .binc _ delta => delta
  | .test _ | .add _ | .testadd _ | .testrem _ | .bget _ => 0
  | .reset | .cap | .krd | .cnt | .breset | .rdstat | .rdfinfo => 0

/-- Encode a command: `cmd[127:64]`, `cmd[63:32]`, the reserved `cmd[31:8]`, and `cmd[7:0]` (R56). -/
def encode (i : Instr) : CmdWord := i.high64 ++ i.middle32 ++ (0#24) ++ i.opcode.code

/-- A command word on a byte transport (20_memory.md R45). -/
def encodeBytes (i : Instr) : List Byte := bytesOfNat 16 (encode i).toNat

end Sys2Proof
end

