-- ==== Sys2Proof/Machine/State.lean ====
section
/-! DEFINITION. The state of a CBE instance (10_state.md R19 to R34), its ports (30_encoding.md R53) and its reset
(10_state.md R33, 70_reset_and_hazards.md R139). -/

namespace Sys2Proof.Machine

/-- The response statuses (30_encoding.md R59); the reserved codes 4 to 15 have no constructor, as none is ever produced. -/
inductive Status where
  | ok | illegal | range | faulted
deriving DecidableEq, Repr

/-- One response: a status and a 64-bit value (30_encoding.md R58). -/
structure Response where
  status : Status
  value : Value
deriving DecidableEq, Repr

/-- What the host drives on the input ports at one port event (30_encoding.md R53, without `clk`). -/
structure PortIn where
  /-- `rst`, hardware reset. -/
  rst : Bool
  /-- `cmd_valid`. -/
  cmdValid : Bool
  /-- `cmd_data`. -/
  cmdData : CmdWord
  /-- `rsp_ready`. -/
  rspReady : Bool
deriving DecidableEq, Repr

/-- The ways the model stops by a fault. Neither is reached from a state with a legal configuration: the spec's own
fault, RANGE, is a next state (60_exceptions.md R126). DEDUCED, log 10. -/
inductive Fault where
  /-- A storage byte address at or above `NBYTES`, which does not exist (20_memory.md R35, R38). Raised by `memRead`
  and `memWrite`. Safe. -/
  | storageHole (a : Nat)
  /-- A bucket index at or above `m` inside `Bkt(j)` (20_memory.md R39, 60_exceptions.md R125). Raised by `readBucket`
  and `writeBucket`. Safe. -/
  | bucketHole (j : Nat)
deriving DecidableEq, Repr

/-- The ways the model refuses to run. -/
inductive Refusal where
  /-- An instruction without a meaning. No arm of `exec` raises it. Safe. -/
  | notModelled (mnemonic : String)
  /-- The configuration is invalid, so there is no instance (60_exceptions.md R131, 93_implementation_defined.md I10).
  Raised by `construct`, and by `whenLegal` on a state that no construction gives (log 9). Safe. -/
  | invalidConfiguration
deriving DecidableEq, Repr

/-- The state of an instance with its host side. -/
structure State where
  /-- The configuration: a parameter of every step, written by none (10_state.md R19, R22, R34). -/
  cfg : Config
  /-- The bucket storage `S` with its padding bits (20_memory.md R38, R42): the non-zero bytes by rising address. -/
  mem : List Host.Cell
  /-- `COUNT` (10_state.md R23). -/
  count : Value
  /-- `FAULT` (10_state.md R25). -/
  fault : Bool
  /-- `CAUSE` (10_state.md R26). -/
  cause : BitVec 4
  /-- `FINFO` (10_state.md R27). -/
  finfo : Value
  /-- The scratch buffer `SCR` (10_state.md R30, 41_filter_membership.md R110); not architectural. -/
  scratch : List Value
  /-- How often the scratch contents have been made unspecified (the model's own counter, log 4). -/
  scratchEra : Nat
  /-- The response presented on the response port and not yet delivered: `rsp_valid` (30_encoding.md R53, R54). -/
  rsp : Option Response
  /-- What the host drives on the input ports, port event by port event, the next one first (30_encoding.md R76; log 3). -/
  inputs : List PortIn
  /-- The responses delivered to the host, oldest first (00_scope.md R14; log 3). -/
  delivered : List Response
deriving DecidableEq, Repr

/-- The state after construction with a configuration and hardware reset (10_state.md R33, 70_reset_and_hazards.md R139,
R140). The scratch contents are DESIGN CHOICE zeros (log 4, unsafe), no input is driven and no response pends. -/
def State.resetWith (c : Config) : State :=
  { cfg := c, mem := [], count := 0, fault := false, cause := 0, finfo := 0,
    scratch := List.replicate c.k.toNat 0, scratchEra := 0, rsp := none, inputs := [], delivered := [] }

/-- The machine right after reset, for the running example's configuration (DESIGN CHOICE, unsafe, log 1). -/
def State.reset : State := State.resetWith Config.example16

end Sys2Proof.Machine
end

