-- ==== Sys2Proof/Machine/Flags.lean ====
section
/-! DEFINITION. The one flag and what is built from it: the status word (10_state.md R28), the status codes
(30_encoding.md R59) and boolean results (30_encoding.md R74). The CBE has no condition codes (10_state.md R29). -/

namespace Sys2Proof.Machine

/-- The 4-bit code of a status (30_encoding.md R59). -/
def statusCode : Status → BitVec 4
  | .ok => 0
  | .illegal => 1
  | .range => 2
  | .faulted => 3

/-- The status of a 4-bit code; the reserved codes 4 to 15 are none (30_encoding.md R59). -/
def statusOfCode (code : BitVec 4) : Option Status :=
  [Status.ok, .illegal, .range, .faulted].find? (fun st => statusCode st == code)

/-- The status word: FAULT in bit 0, CAUSE in bits 7:4, every other bit 0 (10_state.md R28, 42_accessors_status.md R117). -/
def statusWord (s : State) : Value := (s.cause ++ (0#3) ++ BitVec.ofBool s.fault).setWidth 64

/-- A boolean result: 1 for true, 0 for false (30_encoding.md R74). -/
def boolValue (r : Bool) : Value := if r then 1 else 0

/-- The cause code of RANGE (10_state.md R26, 60_exceptions.md R124). -/
def causeRange : BitVec 4 := 2

end Sys2Proof.Machine
end

