-- ==== Sys2Proof/Machine/Memory.lean ====
section
/-! DEFINITION. The storage bytes as a canonical list of cells (20_memory.md R35, R38): addresses strictly rising, no
zero byte listed, an unlisted byte reading as 0 (the reset contents of 10_state.md R33). -/

namespace Sys2Proof.Machine

/-- The byte at an address; an unlisted one is 0 (10_state.md R33, 20_memory.md R42). -/
def memGet : List Host.Cell → Nat → Byte
  | [], _ => 0
  | (c, x) :: r, a => if c = a then x else memGet r a

/-- The memory without an address. -/
def memErase (m : List Host.Cell) (a : Nat) : List Host.Cell := m.filter (fun c => c.1 != a)

/-- Insert a cell before the first higher address. -/
def memInsert : List Host.Cell → Nat → Byte → List Host.Cell
  | [], a, v => [(a, v)]
  | (c, x) :: r, a, v => if a < c then (a, v) :: (c, x) :: r else (c, x) :: memInsert r a v

/-- Write a byte; writing 0 removes the entry, so that equal memories are equal lists. -/
def memPut (m : List Host.Cell) (a : Nat) (v : Byte) : List Host.Cell :=
  if v = 0 then memErase m a else memInsert (memErase m a) a v

/-- Write 0 to the bytes below `n` (20_memory.md R41). -/
def memZeroBelow (m : List Host.Cell) (n : Nat) : List Host.Cell := m.filter (fun c => decide (n ≤ c.1))

/-- The canonical form: addresses strictly rising, no zero byte. -/
abbrev Memory.wf (m : List Host.Cell) : Prop :=
  m.Pairwise (fun c d => c.1 < d.1) ∧ ∀ c ∈ m, c.2 ≠ 0

/-- Storage bit `p`: bit `p mod 8` of byte `floor(p / 8)` (20_memory.md R37). -/
def memBit (m : List Host.Cell) (p : Nat) : Bool := (memGet m (p / 8)).getLsbD (p % 8)

/-- The `n` storage bits from `p` up, as a number, the lowest bit first (20_memory.md R39). -/
def memField (m : List Host.Cell) (p : Nat) : Nat → Nat
  | 0 => 0
  | n + 1 => memField m p n + (memBit m (p + n)).toNat * 2 ^ n

end Sys2Proof.Machine
end

