-- ==== Sys2Proof/Machine/Operands.lean ====
section
/-! DEFINITION. The operand forms: digest, bucket index, signed delta (30_encoding.md R57), and the index list derived
from a digest (41_filter_membership.md R90, R91). -/

namespace Sys2Proof.Machine

/-- `lower = DIG[31:0]`, unsigned (R90). -/
def digestLower (dig : Value) : Nat := (dig.extractLsb' 0 32).toNat

/-- `upper = DIG[63:32]`, unsigned (R90). -/
def digestUpper (dig : Value) : Nat := (dig.extractLsb' 32 32).toNat

/-- `idx_i = (lower + upper * i) mod m`, on exact integers (R91). -/
def indexAt (c : Config) (dig : Value) (i : Nat) : Nat := (digestLower dig + digestUpper dig * i) % c.m.toNat

/-- `Indices(DIG) = [idx_0, ..., idx_(k-1)]`, in round order, repeats kept (R91). -/
def indexList (c : Config) (dig : Value) : List Nat := (List.range c.k.toNat).map (indexAt c dig)

/-- `IDX` as an unsigned integer, not reduced modulo `m` (30_encoding.md R57). -/
def indexOf (idx : Value) : Nat := idx.toNat

/-- `delta = sext_32(DELTA)` (30_encoding.md R57). -/
def deltaOf (delta : BitVec 32) : Int := delta.toInt

/-- `clamp(v, lo, hi) = min(max(v, lo), hi)` (00_scope.md R10). -/
def clamp (v lo hi : Int) : Int := min (max v lo) hi

end Sys2Proof.Machine
end

