-- ==== Sys2Proof/Machine/Ops.lean ====
section
/-! DEFINITION. The named operations the commands are made of: the storage and bucket primitives (20_memory.md R38 to
R41), the count register, the scratch buffer, responding, entering the fault state, and hardware reset. -/

namespace Sys2Proof.Machine

/-- `NBYTES = ceil(m * b / 8)` (00_scope.md R7). -/
def nbytes (c : Config) : Nat := (c.m.toNat * c.b.toNat + 7) / 8

/-- `MAX = 2^b - 1` (00_scope.md R7). -/
def maxVal (c : Config) : Nat := 2 ^ c.b.toNat - 1

/-- `MemRead(a, 1)`, for `a < NBYTES` (20_memory.md R38). -/
def memRead (s : State) (a : Nat) : Except Fault Byte :=
  if a < nbytes s.cfg then .ok (memGet s.mem a) else .error (.storageHole a)

/-- `MemWrite(a, 1, v)`, for `a < NBYTES` (20_memory.md R38). -/
def memWrite (s : State) (a : Nat) (v : Byte) : Except Fault State :=
  if a < nbytes s.cfg then .ok { s with mem := memPut s.mem a v } else .error (.storageHole a)

/-- A byte with bit `n` set to `x`. -/
def setBit (y : Byte) (n : Nat) (x : Bool) : Byte :=
  if x then y ||| (1#8 <<< n) else y &&& ~~~(1#8 <<< n)

/-- The `n` storage bits from `p` up, through `MemRead` (20_memory.md R39). -/
def readBits (s : State) (p : Nat) : Nat → Except Fault Nat
  | 0 => .ok 0
  | n + 1 =>
    match readBits s p n with
    | .error f => .error f
    | .ok v =>
      match memRead s ((p + n) / 8) with
      | .error f => .error f
      | .ok y => .ok (v + (y.getLsbD ((p + n) % 8)).toNat * 2 ^ n)

/-- Set storage bit `p + t` to bit `t` of `v` for the `n` lowest `t`, by read-modify-write (20_memory.md R40). -/
def writeBits (s : State) (p v : Nat) : Nat → Except Fault State
  | 0 => .ok s
  | n + 1 =>
    match writeBits s p v n with
    | .error f => .error f
    | .ok t =>
      match memRead t ((p + n) / 8) with
      | .error f => .error f
      | .ok y => memWrite t ((p + n) / 8) (setBit y ((p + n) % 8) (v.testBit n))

/-- `Bkt(j)`, for `j < m` (20_memory.md R39). -/
def readBucket (s : State) (j : Nat) : Except Fault Nat :=
  if j < s.cfg.m.toNat then readBits s (j * s.cfg.b.toNat) s.cfg.b.toNat else .error (.bucketHole j)

/-- `Bkt(j) <- v`, for `j < m` (20_memory.md R40). -/
def writeBucket (s : State) (j v : Nat) : Except Fault State :=
  if j < s.cfg.m.toNat then writeBits s (j * s.cfg.b.toNat) v s.cfg.b.toNat else .error (.bucketHole j)

/-- The abstract bucket state (10_state.md R31): the view of the storage that statements speak of. -/
def State.bkt (s : State) (j : Nat) : Nat := memField s.mem (j * s.cfg.b.toNat) s.cfg.b.toNat

/-- `ZeroAll()`: 0 to every storage byte `0 .. NBYTES-1` (20_memory.md R41). -/
def zeroAll (s : State) : State := { s with mem := memZeroBelow s.mem (nbytes s.cfg) }

/-- `clamp(v + delta, 0, MAX)`, the exact sum first (40_bucket_array.md R81, 41_filter_membership.md R96, R98). -/
def bumped (c : Config) (v : Nat) (delta : Int) : Nat := (clamp (v + delta) 0 (maxVal c)).toNat

/-- One round on bucket `j`: `Bkt(j) <- clamp(Bkt(j) + delta, 0, MAX)` (41_filter_membership.md R96, R98). -/
def bump (delta : Int) (j : Nat) (s : State) : Except Fault State :=
  match readBucket s j with
  | .error f => .error f
  | .ok v => writeBucket s j (bumped s.cfg v delta)

/-- One round per occurrence, in list order, each seeing the rounds before it (41_filter_membership.md R100). -/
def bumpAll (delta : Int) : List Nat → State → Except Fault State
  | [], s => .ok s
  | j :: js, s =>
    match bump delta j s with
    | .error f => .error f
    | .ok t => bumpAll delta js t

/-- `Member(L)`: every bucket of the list is non-zero (41_filter_membership.md R93). Every bucket is read; stopping
early would not be observable (R109). -/
def member (s : State) : List Nat → Except Fault Bool
  | [] => .ok true
  | j :: js =>
    match readBucket s j with
    | .error f => .error f
    | .ok v =>
      match member s js with
      | .error f => .error f
      | .ok r => .ok (v != 0 && r)

/-- `COUNT <- wrap64(COUNT + 1)` (10_state.md R24). -/
def countUp (s : State) : State := { s with count := s.count + 1 }

/-- `COUNT <- wrap64(COUNT - 1)` (10_state.md R24). -/
def countDown (s : State) : State := { s with count := s.count - 1 }

/-- `COUNT <- 0` (41_filter_membership.md R99). -/
def clearCount (s : State) : State := { s with count := 0 }

/-- `SCR[i] <- idx_i`, for every round (41_filter_membership.md R98, R110). -/
def stageScratch (l : List Nat) (s : State) : State := { s with scratch := l.map (BitVec.ofNat 64) }

/-- The staged indices, read back from the scratch buffer (41_filter_membership.md R98). -/
def stagedIndices (s : State) : List Nat := s.scratch.map BitVec.toNat

/-- The `k` scratch entries become unspecified: free values drawn with the era counter (10_state.md R30; log 4). -/
def releaseScratch (s : State) : State :=
  { s with scratch := (List.range s.cfg.k.toNat).map (Config.scratchResidue s.scratchEra),
           scratchEra := s.scratchEra + 1 }

/-- `respond(st, val)`: present one response (30_encoding.md R58). -/
def respond (st : Status) (val : Value) (s : State) : State := { s with rsp := some { status := st, value := val } }

/-- `raise Fault(cause, info)`: FAULT, CAUSE and FINFO are written, the response is (RANGE, 0), and nothing else changes
(60_exceptions.md R126). There is no handler address and no saved program counter. -/
def raiseFault (cause : BitVec 4) (info : Value) (s : State) : State :=
  respond .range 0 { s with fault := true, cause := cause, finfo := info }

/-- Hardware reset, the only way out of the faulted state (60_exceptions.md R128, 70_reset_and_hazards.md R139, R141):
the reset state of 10_state.md R33, with no response pending, the scratch contents unspecified. The configuration
stays, and so does what belongs to the host: its inputs to come and the responses it has received. -/
def hardReset (s : State) : State :=
  releaseScratch { State.resetWith s.cfg with
    scratchEra := s.scratchEra, inputs := s.inputs, delivered := s.delivered }

/-- Go on with a result, or stop with its fault. -/
def orFault {α : Type} (r : Except Fault α) (k : α → Host.Outcome State Fault Refusal) : Host.Outcome State Fault Refusal :=
  match r with
  | .error f => .fault f
  | .ok x => k x

/-- Run only on an instance that exists: an invalid configuration is refused (60_exceptions.md R131). -/
def whenLegal (s : State) (body : Host.Outcome State Fault Refusal) : Host.Outcome State Fault Refusal :=
  if s.cfg.legal then body else .refused .invalidConfiguration

/-- Run only in the ready state: in the faulted state the response is (FAULTED, 0) and nothing else changes
(30_encoding.md R62, 60_exceptions.md R127). -/
def whenReady (s : State) (body : Host.Outcome State Fault Refusal) : Host.Outcome State Fault Refusal :=
  whenLegal s (if s.fault then .next (respond .faulted 0 s) else body)

/-- `CheckIndex(IDX)`: an index at or above `m` raises RANGE (40_bucket_array.md R79). -/
def checkIndex (idx : Value) (s : State) (body : Host.Outcome State Fault Refusal) : Host.Outcome State Fault Refusal :=
  if indexOf idx < s.cfg.m.toNat then body else .next (raiseFault causeRange idx s)

/-- Construction: a legal configuration gives an instance in the reset state, an invalid one gives none
(60_exceptions.md R131, 70_reset_and_hazards.md R140, R145). -/
def construct (c : Config) : Host.Outcome State Fault Refusal :=
  if c.legal then .next (State.resetWith c) else .refused .invalidConfiguration

end Sys2Proof.Machine
end

