-- ==== Sys2Proof/Machine/Accessors.lean ====
section
/-! DEFINITION. The accessor and status commands CAP, KRD, CNT, RDSTAT and RDFINFO (42_accessors_status.md). -/

namespace Sys2Proof.Machine

/-- CAP: `m` (R114). -/
def execCap (s : State) : Host.Outcome State Fault Refusal :=
  whenReady s <| .next (respond .ok s.cfg.m s)

/-- KRD: `k` (R115). -/
def execKrd (s : State) : Host.Outcome State Fault Refusal :=
  whenReady s <| .next (respond .ok s.cfg.k s)

/-- CNT: COUNT (R116). -/
def execCnt (s : State) : Host.Outcome State Fault Refusal :=
  whenReady s <| .next (respond .ok s.count s)

/-- RDSTAT: the status word, in either state (R117, 60_exceptions.md R127). -/
def execRdstat (s : State) : Host.Outcome State Fault Refusal :=
  whenLegal s <| .next (respond .ok (statusWord s) s)

/-- RDFINFO: FINFO, in either state (R118, 60_exceptions.md R127). -/
def execRdfinfo (s : State) : Host.Outcome State Fault Refusal :=
  whenLegal s <| .next (respond .ok s.finfo s)

end Sys2Proof.Machine
end

