-- ==== Sys2Proof/Machine/BucketArray.lean ====
section
/-! DEFINITION. The BucketArray commands BGET, BINC and BRESET (40_bucket_array.md). -/

namespace Sys2Proof.Machine

/-- BGET: the value of bucket IDX, or the RANGE fault (R80). -/
def execBget (idx : Value) (s : State) : Host.Outcome State Fault Refusal :=
  whenReady s <| checkIndex idx s <| orFault (readBucket s (indexOf idx)) fun v =>
    .next (respond .ok (BitVec.ofNat 64 v) s)

/-- BINC: the bucket plus the signed delta, clamped to `[0, MAX]`, written and returned, or the RANGE fault (R81 to R83). -/
def execBinc (idx : Value) (delta : BitVec 32) (s : State) : Host.Outcome State Fault Refusal :=
  whenReady s <| checkIndex idx s <| orFault (readBucket s (indexOf idx)) fun v =>
    orFault (writeBucket s (indexOf idx) (bumped s.cfg v (deltaOf delta))) fun t =>
      .next (respond .ok (BitVec.ofNat 64 (bumped s.cfg v (deltaOf delta))) t)

/-- BRESET: every bucket and padding bit to 0, COUNT kept (R84, R89). -/
def execBreset (s : State) : Host.Outcome State Fault Refusal :=
  whenReady s <| .next (respond .ok 0 (zeroAll s))

end Sys2Proof.Machine
end

