-- ==== Sys2Proof/Machine/Membership.lean ====
section
/-! DEFINITION. The membership commands TEST, ADD, TESTADD, TESTREM and RESET (41_filter_membership.md). -/

namespace Sys2Proof.Machine

/-- TEST: is every indexed bucket non-zero (R95)? -/
def execTest (dig : Value) (s : State) : Host.Outcome State Fault Refusal :=
  whenReady s <| orFault (member s (indexList s.cfg dig)) fun r => .next (respond .ok (boolValue r) s)

/-- ADD: one saturating increment per round, and COUNT up (R96, R100). -/
def execAdd (dig : Value) (s : State) : Host.Outcome State Fault Refusal :=
  whenReady s <| orFault (bumpAll 1 (indexList s.cfg dig) s) fun t => .next (respond .ok 0 (countUp t))

/-- TESTADD: membership on the state before any increment, then as ADD, whatever the answer (R97). -/
def execTestadd (dig : Value) (s : State) : Host.Outcome State Fault Refusal :=
  whenReady s <| orFault (member s (indexList s.cfg dig)) fun r =>
    orFault (bumpAll 1 (indexList s.cfg dig) s) fun t => .next (respond .ok (boolValue r) (countUp t))

/-- TESTREM: the indices are staged in the scratch buffer and all checked before any bucket is written; only a member
is removed (R98, R102, R110). After the command the scratch contents are unspecified (10_state.md R30). -/
def execTestrem (dig : Value) (s : State) : Host.Outcome State Fault Refusal :=
  whenReady s <|
    let s1 := stageScratch (indexList s.cfg dig) s
    orFault (member s1 (stagedIndices s1)) fun r =>
      if r then
        orFault (bumpAll (-1) (stagedIndices s1) s1) fun t =>
          .next (respond .ok (boolValue true) (releaseScratch (countDown t)))
      else .next (respond .ok (boolValue false) (releaseScratch s1))

/-- RESET: every bucket, padding bit and COUNT to 0; the fault state is not touched (R99). -/
def execReset (s : State) : Host.Outcome State Fault Refusal :=
  whenReady s <| .next (respond .ok 0 (clearCount (zeroAll s)))

end Sys2Proof.Machine
end

