-- ==== Sys2Proof/Machine/Dispatch.lean ====
section
/-! DEFINITION. The meaning of every command, one arm each (30_encoding.md R61). -/

namespace Sys2Proof.Machine

def exec (i : Instr) (s : State) : Host.Outcome State Fault Refusal :=
  match i with
  | .test dig => Sys2Proof.Machine.execTest dig s
  | .add dig => Sys2Proof.Machine.execAdd dig s
  | .testadd dig => Sys2Proof.Machine.execTestadd dig s
  | .testrem dig => Sys2Proof.Machine.execTestrem dig s
  | .reset => Sys2Proof.Machine.execReset s
  | .cap => Sys2Proof.Machine.execCap s
  | .krd => Sys2Proof.Machine.execKrd s
  | .cnt => Sys2Proof.Machine.execCnt s
  | .bget idx => Sys2Proof.Machine.execBget idx s
  | .binc idx delta => Sys2Proof.Machine.execBinc idx delta s
  | .breset => Sys2Proof.Machine.execBreset s
  | .rdstat => Sys2Proof.Machine.execRdstat s
  | .rdfinfo => Sys2Proof.Machine.execRdfinfo s

end Sys2Proof.Machine
end

