-- ==== Sys2Proof/Machine/Port.lean ====
section
/-! DEFINITION. The ports and their handshake (30_encoding.md R53, R54, R76 to R78), the dispatch of a command word
(R62), and one port event of the engine. A port event is not a clock cycle: latency is not modelled (R154, log 5). -/

namespace Sys2Proof.Machine

/-- The input ports when the host drives nothing. -/
def PortIn.idle : PortIn := { rst := false, cmdValid := false, cmdData := 0, rspReady := false }

/-- What the host drives at this port event; nothing once its inputs have run out. -/
def currentInput (s : State) : PortIn := s.inputs.headD PortIn.idle

/-- The state with this port event's inputs taken. -/
def takeInput (s : State) : State := { s with inputs := s.inputs.tail }

/-- `rsp_valid` (R53): a response pends. The four response outputs and `fault_o` show the state a port event begins in, at
an event with `rst = 1` too, where the spec states `cmd_ready` alone (70_reset_and_hazards.md R139): `rsp_valid` is then
1 if a response pends, and that response is not delivered (R141). DESIGN CHOICE, unsafe, log 11. -/
def rspValid (s : State) : Bool := s.rsp.isSome

/-- `rsp_status`, while `rsp_valid = 1` (R53, R59; log 6; with `rst = 1`, log 11). -/
def rspStatus (s : State) : Option (BitVec 4) := s.rsp.map (fun r => statusCode r.status)

/-- `rsp_value`, while `rsp_valid = 1` (R53, R58; log 6; with `rst = 1`, log 11). -/
def rspValue (s : State) : Option Value := s.rsp.map (fun r => r.value)

/-- `fault_o`, a level equal to FAULT (R53, 60_exceptions.md R134); with `rst = 1`, log 11. -/
def faultO (s : State) : Bool := s.fault

/-- `rsp_status` on a byte transport: one byte, the code in its low bits (20_memory.md R45, R59; log 12). -/
def statusBytes (r : Response) : List Byte := bytesOfNat 1 (statusCode r.status).toNat

/-- `rsp_value` on a byte transport: eight bytes, byte 0 being bits 7:0 (20_memory.md R45, R58). -/
def valueBytes (r : Response) : List Byte := bytesOfNat 8 r.value.toNat

/-- The response of the bytes of its two words; none where their numbers are wrong or the status code is reserved
(20_memory.md R45, R58, R59; log 12). -/
def responseOfBytes (status value : List Byte) : Option Response :=
  if status.length = 1 ∧ value.length = 8 ∧ wordOfBytes status < 16 then
    (statusOfCode (BitVec.ofNat 4 (wordOfBytes status))).map fun st =>
      { status := st, value := BitVec.ofNat 64 (wordOfBytes value) }
  else none

/-- `cmd_ready`: not in reset (70_reset_and_hazards.md R139), and the engine can hold the response (R77), there being
none pending or the pending one being delivered at this very event (log 5). -/
def cmdReady (s : State) : Bool :=
  !(currentInput s).rst && (s.rsp.isNone || (currentInput s).rspReady)

/-- A command is accepted where `cmd_valid = 1` and `cmd_ready = 1` (R54). -/
def accepts (s : State) : Bool := (currentInput s).cmdValid && cmdReady s

/-- A response is delivered where `rsp_valid = 1` and `rsp_ready = 1` (R54); else it is kept as it is. -/
def deliver (ready : Bool) (s : State) : State :=
  match ready, s.rsp with
  | true, some r => { s with rsp := none, delivered := s.delivered ++ [r] }
  | _, _ => s

/-- The commands that execute in the faulted state, by `op` (R62, 60_exceptions.md R127). -/
def statusReadOp (op : BitVec 8) : Bool := op == 0x20 || op == 0x21

/-- The answer to a word that is no command: FAULTED before ILLEGAL, and no state changes (R62 to R64, 60_exceptions.md
R121, R127, R130). -/
def rejectWord (w : CmdWord) (s : State) : Host.Outcome State Fault Refusal :=
  whenLegal s <|
    if s.fault && !statusReadOp (opOf w) then .next (respond .faulted 0 s) else .next (respond .illegal 0 s)

/-- `Execute(cmd)` (R62): the FAULTED check of a listed command stands in its meaning. -/
def executeWord (w : CmdWord) (s : State) : Host.Outcome State Fault Refusal :=
  match decode w with
  | .ok i => exec i s
  | .error _ => rejectWord w s

/-- The state in which a command is executed at this event: inputs taken, and the pending response delivered if the
host is ready for it. -/
def readied (s : State) : State := deliver (currentInput s).rspReady (takeInput s)

/-- One port event: hardware reset dominates (70_reset_and_hazards.md R139, R141); else a response may be delivered and
a command accepted and executed to its response (R54, R60). -/
def portEvent (s : State) : Host.Outcome State Fault Refusal :=
  whenLegal s <|
    if (currentInput s).rst then .next (hardReset (takeInput s))
    else if accepts s then executeWord (currentInput s).cmdData (readied s)
    else .next (readied s)

/-- The host presenting a command word at its next port event, ready for a response that may be pending. -/
def PortIn.command (w : CmdWord) : PortIn := { rst := false, cmdValid := true, cmdData := w, rspReady := true }

/-- The state with a word presented at the next port event (log 3). -/
def offerWord (w : CmdWord) (s : State) : State := { s with inputs := PortIn.command w :: s.inputs }

/-- A table word of `nbits` bits as a command word; the bits above are zero. -/
def tableWord (nbits w : Nat) : CmdWord := BitVec.ofNat 128 (w % 2 ^ nbits)

end Sys2Proof.Machine
end

