-- ==== Sys2Proof/Machine/Step.lean ====
section
/-! DEFINITION. One step of the engine is one port event (30_encoding.md R60). -/

namespace Sys2Proof.Machine

/-- One port event. -/
def step (s : State) : Host.Outcome State Fault Refusal := portEvent s

/-- The state with a command presented where the next step takes it: at the head of the host's inputs (log 3). -/
def State.withFetchWord (s : State) (nbits w : Nat) : State := offerWord (tableWord nbits w) s

end Sys2Proof.Machine
end

