-- ==== Sys2Proof/Machine/Pseudo.lean ====
section
/-! DEFINITION. The pseudo-instructions as the commands they stand for (30_encoding.md R70, R71). -/

namespace Sys2Proof.Machine

/-- The command a pseudo-instruction expands to; the element forms hash their bytes with the host's kernel (R70, R71). -/
def expandPseudo : Pseudo → Instr
  | .bdec idx => .binc idx (-1)
  | .teste x => .test (Config.hash x)
  | .adde x => .add (Config.hash x)
  | .testadde x => .testadd (Config.hash x)
  | .testreme x => .testrem (Config.hash x)

/-- The command an assembler item stands for. -/
def AsmItem.command : AsmItem → Instr
  | .instr i => i
  | .pseudo p => expandPseudo p

end Sys2Proof.Machine
end

