-- ==== Sys2Proof/Machine/Assembler.lean ====
section
/-! DEFINITION. Assembler text (30_encoding.md R68 to R71). Text is a list of characters. What R68 leaves open of the
text form (white space, quoted characters above 0x7F) is log 8. -/

namespace Sys2Proof.Machine

/-- Why a line of text is no command. -/
inductive AsmError where
  /-- The first word of the line is no mnemonic. -/
  | unknownMnemonic
  /-- An operand is neither a number nor a quoted byte string. -/
  | badOperand
  /-- The mnemonic does not take these operands, or one is outside its range (R68: never a silent truncation). -/
  | badOperands
deriving DecidableEq, Repr

/-- A lower-case letter for a letter (R68: mnemonics are case-insensitive). -/
def lowerChar (c : Char) : Char := if 65 ≤ c.toNat && c.toNat ≤ 90 then Char.ofNat (c.toNat + 32) else c

/-- White space between the parts of a line: space, tab, carriage return (log 8). -/
def isBlank (c : Char) : Bool := c == ' ' || c == '\t' || c == '\r'

/-- The value of a hexadecimal digit. -/
def digitValue (c : Char) : Option Nat :=
  if 48 ≤ c.toNat && c.toNat ≤ 57 then some (c.toNat - 48)
  else if 97 ≤ c.toNat && c.toNat ≤ 102 then some (c.toNat - 87)
  else if 65 ≤ c.toNat && c.toNat ≤ 70 then some (c.toNat - 55)
  else none

/-- Digits in a base, after the digits of `acc`. -/
def digits (base : Nat) : List Char → Nat → Option Nat
  | [], acc => some acc
  | c :: cs, acc =>
    match digitValue c with
    | some d => if d < base then digits base cs (acc * base + d) else none
    | none => none

/-- A non-negative number: decimal, or `0x` and hexadecimal (R68). -/
def parseNat : List Char → Option Nat
  | [] => none
  | ['0', 'x'] => none
  | '0' :: 'x' :: cs => digits 16 cs 0
  | cs => digits 10 cs 0

/-- A number; a negative one is decimal (R68). -/
def parseNumber : List Char → Option Int
  | ['-'] => none
  | '-' :: cs => (digits 10 cs 0).map (fun n => -(n : Int))
  | cs => (parseNat cs).map (fun n => (n : Int))

/-- The bytes of a quoted literal up to its closing quote, with the text after it (R71; log 8). -/
def quoted : List Char → Option (List Byte × List Char)
  | [] => none
  | c :: cs =>
    if c == '"' then some ([], cs)
    else if c.toNat < 128 then (quoted cs).map (fun r => (BitVec.ofNat 8 c.toNat :: r.1, r.2))
    else none

/-- An operand's text: a quoted literal and nothing after it, or a number. -/
def parseOperand : List Char → Option SrcOperand
  | '"' :: cs =>
    match quoted cs with
    | some (x, []) => some (.bytes x)
    | _ => none
  | cs => (parseNumber cs).map .num

/-- The text before a comment; a `;` inside a quoted literal begins none (R68; log 8). -/
def stripComment : Bool → List Char → List Char
  | _, [] => []
  | inQuote, c :: cs =>
    if c == '"' then c :: stripComment (!inQuote) cs
    else if c == ';' && !inQuote then []
    else c :: stripComment inQuote cs

/-- The text without the white space at its ends. -/
def trim (cs : List Char) : List Char := ((cs.dropWhile isBlank).reverse.dropWhile isBlank).reverse

/-- The parts of a text between separators; a separator inside a quoted literal does not count. -/
def splitAtChar (sep : Char) : Bool → List Char → List (List Char)
  | _, [] => [[]]
  | inQuote, c :: cs =>
    if c == sep && !inQuote then [] :: splitAtChar sep inQuote cs
    else
      match splitAtChar sep (if c == '"' then !inQuote else inQuote) cs with
      | p :: ps => (c :: p) :: ps
      | [] => [[c]]

/-- The mnemonics of R61, R70 and R71, in lower case. -/
def mnemonicTable : List (List Char × Mnemonic) :=
  [(['t', 'e', 's', 't'], .core .test), (['a', 'd', 'd'], .core .add),
   (['t', 'e', 's', 't', 'a', 'd', 'd'], .core .testadd), (['t', 'e', 's', 't', 'r', 'e', 'm'], .core .testrem),
   (['r', 'e', 's', 'e', 't'], .core .reset), (['c', 'a', 'p'], .core .cap), (['k', 'r', 'd'], .core .krd),
   (['c', 'n', 't'], .core .cnt), (['b', 'g', 'e', 't'], .core .bget), (['b', 'i', 'n', 'c'], .core .binc),
   (['b', 'r', 'e', 's', 'e', 't'], .core .breset), (['r', 'd', 's', 't', 'a', 't'], .core .rdstat),
   (['r', 'd', 'f', 'i', 'n', 'f', 'o'], .core .rdfinfo)]
  ++ [(['b', 'd', 'e', 'c'], .bdec), (['t', 'e', 's', 't', 'e'], .teste), (['a', 'd', 'd', 'e'], .adde),
   (['t', 'e', 's', 't', 'a', 'd', 'd', 'e'], .testadde), (['t', 'e', 's', 't', 'r', 'e', 'm', 'e'], .testreme)]

/-- The mnemonic a word of text names, whatever its case (R68). -/
def findMnemonic (cs : List Char) : Option Mnemonic :=
  (mnemonicTable.find? (fun r => r.1 == cs.map lowerChar)).map (fun r => r.2)

/-- Every operand of a list, or none if one is no operand. -/
def parseOperands : List (List Char) → Option (List SrcOperand)
  | [] => some []
  | p :: ps =>
    match parseOperand (trim p), parseOperands ps with
    | some o, some os => some (o :: os)
    | _, _ => none

/-- A line of text that is not blank, in parts (R68: `MNEMONIC` or `MNEMONIC operand[, operand]`). -/
def parseLine (cs : List Char) : Except AsmError SrcLine :=
  match findMnemonic (cs.takeWhile (fun c => !isBlank c)) with
  | none => .error .unknownMnemonic
  | some mn =>
    match trim (cs.dropWhile (fun c => !isBlank c)) with
    | [] => .ok { mnemonic := mn, operands := [] }
    | rest =>
      match parseOperands (splitAtChar ',' false rest) with
      | some os => .ok { mnemonic := mn, operands := os }
      | none => .error .badOperand

/-- The item of an assembler line; operands of the wrong number, kind or range are an error (R68, "field assembly"). -/
def assembleLine (l : SrcLine) : Except AsmError AsmItem :=
  if !l.wf then .error .badOperands
  else match l.mnemonic, l.operands with
    | .core .test, [.num v] => .ok (.instr (.test (BitVec.ofInt 64 v)))
    | .core .add, [.num v] => .ok (.instr (.add (BitVec.ofInt 64 v)))
    | .core .testadd, [.num v] => .ok (.instr (.testadd (BitVec.ofInt 64 v)))
    | .core .testrem, [.num v] => .ok (.instr (.testrem (BitVec.ofInt 64 v)))
    | .core .bget, [.num v] => .ok (.instr (.bget (BitVec.ofInt 64 v)))
    | .core .binc, [.num v, .num d] => .ok (.instr (.binc (BitVec.ofInt 64 v) (BitVec.ofInt 32 d)))
    | .core .reset, _ => .ok (.instr .reset)
    | .core .cap, _ => .ok (.instr .cap)
    | .core .krd, _ => .ok (.instr .krd)
    | .core .cnt, _ => .ok (.instr .cnt)
    | .core .breset, _ => .ok (.instr .breset)
    | .core .rdstat, _ => .ok (.instr .rdstat)
    | .core .rdfinfo, _ => .ok (.instr .rdfinfo)
    | .bdec, [.num v] => .ok (.pseudo (.bdec (BitVec.ofInt 64 v)))
    | .teste, [.bytes x] => .ok (.pseudo (.teste x))
    | .adde, [.bytes x] => .ok (.pseudo (.adde x))
    | .testadde, [.bytes x] => .ok (.pseudo (.testadde x))
    | .testreme, [.bytes x] => .ok (.pseudo (.testreme x))
    | _, _ => .error .badOperands

/-- The command word of one line of text; none for a line that is blank or a comment only (R68). -/
def assembleText (cs : List Char) : Except AsmError (Option CmdWord) :=
  match trim (stripComment false cs) with
  | [] => .ok none
  | body =>
    match parseLine body with
    | .error e => .error e
    | .ok l =>
      match assembleLine l with
      | .error e => .error e
      | .ok item => .ok (some (encode (AsmItem.command item)))

/-- The command words of lines of text, blank ones left out. -/
def assembleLines : List (List Char) → Except AsmError (List CmdWord)
  | [] => .ok []
  | l :: ls =>
    match assembleText l, assembleLines ls with
    | .error e, _ => .error e
    | .ok _, .error e => .error e
    | .ok none, .ok ws => .ok ws
    | .ok (some w), .ok ws => .ok (w :: ws)

/-- The lines of a text, one command each (R68). -/
def splitLines : List Char → List (List Char)
  | [] => [[]]
  | c :: cs =>
    match c == '\n', splitLines cs with
    | true, ls => [] :: ls
    | false, p :: ps => (c :: p) :: ps
    | false, [] => [[c]]

/-- The command words of a text, one command a line, in order (R68). -/
def assemble (cs : List Char) : Except AsmError (List CmdWord) := assembleLines (splitLines cs)

/-- A hexadecimal digit, upper case. -/
def hexDigit (n : Nat) : Char := if n < 10 then Char.ofNat (48 + n) else Char.ofNat (55 + n)

/-- The `n` low hexadecimal digits of a number, the most significant first. -/
def hexDigits : Nat → Nat → List Char
  | 0, _ => []
  | n + 1, v => hexDigits n (v / 16) ++ [hexDigit (v % 16)]

/-- A command word as text: `0x` and 32 hexadecimal digits, the most significant first (R68). -/
def wordText (w : CmdWord) : List Char := '0' :: 'x' :: hexDigits 32 w.toNat

end Sys2Proof.Machine
end

