-- ==== Sys2Proof/Safety.lean ====
section
/-! DEFINITION. What a good state and a safe outcome are, in the terms the statements use. -/

namespace Sys2Proof

open Sys2Proof.Machine

/-- A response carries 0 unless its status is OK (30_encoding.md R58). -/
abbrev Safety.responseSound (r : Response) : Prop := r.status ≠ .ok → r.value = 0

/-- The fault state is coherent: while FAULT = 0, CAUSE and FINFO are 0; while FAULT = 1, CAUSE is RANGE's code and
FINFO an index at or above `m` (10_state.md R26, R27, 60_exceptions.md R124, R129). -/
abbrev Safety.faultCoherent (s : State) : Prop :=
  (s.fault = false → s.cause = 0 ∧ s.finfo = 0) ∧
  (s.fault = true → s.cause = causeRange ∧ s.cfg.m.toNat ≤ s.finfo.toNat)

/-- The invariant of the machine: a legal configuration, a canonical storage with no byte past its end and zero padding
(20_memory.md R42), a coherent fault state, a scratch buffer of length `k`, sound responses. -/
structure Safety.Inv (s : State) : Prop where
  legal : s.cfg.legal
  memCanonical : Memory.wf s.mem
  memInside : ∀ c ∈ s.mem, c.1 < nbytes s.cfg
  paddingZero : ∀ p, s.cfg.m.toNat * s.cfg.b.toNat ≤ p → memBit s.mem p = false
  faultCoherent : Safety.faultCoherent s
  scratchLength : s.scratch.length = s.cfg.k.toNat
  pendingSound : ∀ r, s.rsp = some r → Safety.responseSound r
  deliveredSound : ∀ r ∈ s.delivered, Safety.responseSound r

/-- The architectural state of 10_state.md R19 as a host can know it: configuration, abstract buckets, COUNT and the
fault state agree. Storage layout, padding and scratch contents are left out (20_memory.md R43, 10_state.md R30). -/
structure Safety.SameArch (s t : State) : Prop where
  cfg : s.cfg = t.cfg
  bkt : ∀ j, j < s.cfg.m.toNat → s.bkt j = t.bkt j
  count : s.count = t.count
  fault : s.fault = t.fault
  cause : s.cause = t.cause
  finfo : s.finfo = t.finfo

/-- The machine goes on. -/
def Safety.goesOn (o : Host.Outcome State Fault Refusal) : Prop := ∃ t, o = .next t

/-- Command words executed one after another, each from the state the one before left, with the response each got
(30_encoding.md R60, 00_scope.md R14). -/
inductive Safety.Runs : State → List (CmdWord × Response) → State → Prop
  | nil (s : State) : Safety.Runs s [] s
  | cons {s t u : State} {w : CmdWord} {r : Response} {log : List (CmdWord × Response)} :
      executeWord w s = .next t → t.rsp = some r → Safety.Runs t log u → Safety.Runs s ((w, r) :: log) u

/-- A state without its host side: no response pending, nothing driven, nothing delivered. -/
def Safety.hostless (s : State) : State := { s with rsp := none, inputs := [], delivered := [] }

/-- The commands of 41_filter_membership.md R104: none of them lowers a bucket. -/
def Safety.neverLowers : Instr → Bool
  | .add _ | .testadd _ | .test _ | .bget _ | .cap | .krd | .cnt | .rdstat | .rdfinfo => true
  | .binc _ delta => decide (0 ≤ deltaOf delta)
  | .testrem _ | .reset | .breset => false

/-- Is this logged command an ADD or TESTADD that was executed (41_filter_membership.md R107)? -/
def Safety.isAdd (e : CmdWord × Response) : Bool :=
  match decode e.1 with
  | .ok (.add _) => e.2.status == .ok
  | .ok (.testadd _) => e.2.status == .ok
  | _ => false

/-- Is this logged command a TESTREM that returned 1 (41_filter_membership.md R107)? -/
def Safety.isRemoval (e : CmdWord × Response) : Bool :=
  match decode e.1 with
  | .ok (.testrem _) => e.2.status == .ok && e.2.value == 1
  | _ => false

/-- Is storage bit `p` a bit of one of these buckets (20_memory.md R36)? -/
def Safety.bitOf (c : Config) (js : List Nat) (p : Nat) : Prop :=
  ∃ j ∈ js, j * c.b.toNat ≤ p ∧ p < j * c.b.toNat + c.b.toNat

/-- Does storage byte `a` hold a bit of one of these buckets (20_memory.md R37)? -/
def Safety.byteOf (c : Config) (js : List Nat) (a : Nat) : Prop :=
  ∃ j ∈ js, ∃ t, t < c.b.toNat ∧ (j * c.b.toNat + t) / 8 = a

/-- The storage frame of a command that stores to some buckets: every other bucket, every storage bit of no such bucket
and every byte that holds none of their bits read as before. -/
structure Safety.StoresOnly (s t : State) (js : List Nat) : Prop where
  buckets : ∀ j, j ∉ js → t.bkt j = s.bkt j
  bits : ∀ p, ¬ Safety.bitOf s.cfg js p → memBit t.mem p = memBit s.mem p
  bytes : ∀ a, ¬ Safety.byteOf s.cfg js a → memGet t.mem a = memGet s.mem a

/-- The bucket index a command word carries, where it selects a bucket command that takes one (40_bucket_array.md R79). -/
def Safety.bucketOperand (w : CmdWord) : Option Value :=
  match decode w with
  | .ok (.bget idx) => some idx
  | .ok (.binc idx _) => some idx
  | _ => none

/-- Does a word name no command (30_encoding.md R63, R64)? -/
def Safety.illegalWord (w : CmdWord) : Bool :=
  match decode w with
  | .ok _ => false
  | .error _ => true

/-- Is every bucket of the index list non-zero (41_filter_membership.md R93)? -/
abbrev Safety.isMember (s : State) (l : List Nat) : Prop := ∀ j ∈ l, s.bkt j ≠ 0

/-- TESTADD carried out round by round, each round reading its bucket and then incrementing it, the answer false if any
read was zero (41_filter_membership.md R101, the alternative implementation). -/
def Safety.interleavedTestadd : List Nat → State → Except Fault (Bool × State)
  | [], s => .ok (true, s)
  | j :: js, s =>
    match readBucket s j with
    | .error f => .error f
    | .ok v =>
      match bump 1 j s with
      | .error f => .error f
      | .ok t =>
        match Safety.interleavedTestadd js t with
        | .error f => .error f
        | .ok (r, u) => .ok (v != 0 && r, u)

end Sys2Proof
end

