-- ==== Sys2Proof/Certificates/Slice0/Obligations.lean ====
section
/-! DEFINITION. The statements about the CBE model, each naming the rules of spec/ it formalises. "Ready" is FAULT = 0
under a legal configuration. -/

open Sys2Proof Sys2Proof.Machine

/-! ### Encoding -/

/-- Decoding an encoded command gives it back, as a word and on a byte transport (R55 to R57, R61, R45). -/
def Obligations.DecodeInvertsEncode : Prop :=
  ∀ (i : Instr) (rest : List Byte),
    decode (encode i) = .ok i ∧ decodeBytes (encodeBytes i ++ rest) = .ok (i, rest)

/-- A command has one word: what decodes to it is its encoding (R55, R64, R66). -/
def Obligations.EncodeInvertsDecode : Prop :=
  ∀ (w : CmdWord) (i : Instr), decode w = .ok i → encode i = w

/-- Words written out from the formats of R56 and the opcodes of R61 decode to what they stand for. -/
def Obligations.WrittenWordsDecode : Prop :=
  decode 0x00000003000000050000000000000001 = .ok (.test 0x0000000300000005) ∧
  decode 0x00000003000000050000000000000002 = .ok (.add 0x0000000300000005) ∧
  decode 0x00000000000000000000000000000005 = .ok .reset ∧
  decode 0x00000000000000070000000000000010 = .ok (.bget 7) ∧
  decode 0x0000000000000002FFFFFFFF00000011 = .ok (.binc 2 0xFFFFFFFF) ∧
  decode 0x00000000000000000000000000000008 = .ok .cnt ∧
  decode 0x00000000000000000000000000000021 = .ok .rdfinfo

/-- The example encodings of R69: assembling the text gives the word. -/
def Obligations.ExampleLinesAssemble : Prop :=
  assembleText "ADD 0x0000000300000005".toList = .ok (some 0x00000003000000050000000000000002) ∧
  assembleText "TESTREM 0x0000000300000005".toList = .ok (some 0x00000003000000050000000000000004) ∧
  assembleText "BINC 2, -1".toList = .ok (some 0x0000000000000002FFFFFFFF00000011) ∧
  assembleText "BINC 9, 5".toList = .ok (some 0x00000000000000090000000500000011) ∧
  assembleText "BGET 7".toList = .ok (some 0x00000000000000070000000000000010) ∧
  assembleText "CNT".toList = .ok (some 0x00000000000000000000000000000008) ∧
  assembleText "RDSTAT".toList = .ok (some 0x00000000000000000000000000000020)

/-- Operand assembly (R57): the digest halves, the index and the signed delta are these fields of the word, unscaled
and not reduced. -/
def Obligations.OperandsAreTheWordsFields : Prop :=
  ∀ (w : CmdWord) (i : Instr), decode w = .ok i →
    (∀ dig, i = .test dig ∨ i = .add dig ∨ i = .testadd dig ∨ i = .testrem dig →
      dig = w.extractLsb' 64 64 ∧
      digestLower dig = (w.extractLsb' 64 32).toNat ∧ digestUpper dig = (w.extractLsb' 96 32).toNat) ∧
    (∀ idx, i = .bget idx → indexOf idx = (w.extractLsb' 64 64).toNat) ∧
    (∀ idx delta, i = .binc idx delta →
      indexOf idx = (w.extractLsb' 64 64).toNat ∧ deltaOf delta = (w.extractLsb' 32 32).toInt)

/-- An assembler line gives a command exactly when its operands are those of its mnemonic, each in its range; the
fields then hold the operands' values, never truncated (R68). -/
def Obligations.AssemblerChecksRanges : Prop :=
  (∀ l : SrcLine, (∃ item, assembleLine l = .ok item) ↔ l.wf = true) ∧
  (∀ v : Int, inRange64 v → ∃ x : Value, (x.toNat : Int) = v ∧
    assembleLine { mnemonic := .core .test, operands := [.num v] } = .ok (.instr (.test x)) ∧
    assembleLine { mnemonic := .core .add, operands := [.num v] } = .ok (.instr (.add x)) ∧
    assembleLine { mnemonic := .core .testadd, operands := [.num v] } = .ok (.instr (.testadd x)) ∧
    assembleLine { mnemonic := .core .testrem, operands := [.num v] } = .ok (.instr (.testrem x)) ∧
    assembleLine { mnemonic := .core .bget, operands := [.num v] } = .ok (.instr (.bget x))) ∧
  (∀ v d : Int, inRange64 v → inRangeDelta d → ∃ (x : Value) (y : BitVec 32), (x.toNat : Int) = v ∧ deltaOf y = d ∧
    assembleLine { mnemonic := .core .binc, operands := [.num v, .num d] } = .ok (.instr (.binc x y)))

/-! ### Dispatch -/

/-- A port event that accepts a word which decodes to a command runs that command, on the state whose inputs have
advanced and whose pending response, if any, is delivered (R54, R60, R62; that a word is accepted at the event that takes
the pending response is the model's choice, log 5). -/
def Obligations.StepRunsDecodedCommand : Prop :=
  ∀ (s : State) (i : Instr), s.cfg.legal → (currentInput s).rst = false → (currentInput s).cmdValid = true →
    (s.rsp = none ∨ (currentInput s).rspReady = true) → decode (currentInput s).cmdData = .ok i →
    step s = exec i (deliver (currentInput s).rspReady { s with inputs := s.inputs.tail })

/-- `Execute(cmd)` of R62, its checks in their order. -/
def Obligations.ExecuteFollowsDispatchOrder : Prop :=
  ∀ (w : CmdWord) (s : State), s.cfg.legal →
    executeWord w s =
      if s.fault = true ∧ opOf w ≠ 0x20 ∧ opOf w ≠ 0x21 then .next { s with rsp := some ⟨.faulted, 0⟩ }
      else match Opcode.ofByte (opOf w) with
        | none => .next { s with rsp := some ⟨.illegal, 0⟩ }
        | some o =>
          if w &&& o.format.mask ≠ o.matchBits then .next { s with rsp := some ⟨.illegal, 0⟩ }
          else exec (Instr.ofFields o w) s

/-- Every accepted word gets exactly one response, its status the first that applies of FAULTED, ILLEGAL, RANGE, else OK,
its value 0 unless OK (R130, with the example word of R130; R58). -/
def Obligations.StatusPriority : Prop :=
  (∀ (w : CmdWord) (s : State), s.cfg.legal →
    ∃ t r, executeWord w s = .next t ∧ t.rsp = some r ∧ (r.status ≠ .ok → r.value = 0) ∧
      r.status =
        if s.fault = true ∧ opOf w ≠ 0x20 ∧ opOf w ≠ 0x21 then Status.faulted
        else if Safety.illegalWord w = true then Status.illegal
        else match Safety.bucketOperand w with
          | some idx => if s.cfg.m.toNat ≤ idx.toNat then Status.range else Status.ok
          | none => Status.ok) ∧
  (∀ s : State, s.cfg.legal → s.fault = false → s.cfg.m = 16 →
    ∃ t, executeWord 0x0000000000000063FFFFFFFF00000F11 s = .next t ∧ t.rsp = some ⟨.illegal, 0⟩ ∧ t.fault = false)

/-- An opcode that is not listed answers ILLEGAL in the ready state and changes nothing else; the zero word is one (R63). -/
def Obligations.UnlistedOpcodeIsIllegal : Prop :=
  ∀ (w : CmdWord) (s : State), s.cfg.legal → s.fault = false →
    (opOf w = 0x00 ∨ (0x09 ≤ (opOf w).toNat ∧ (opOf w).toNat ≤ 0x0F) ∨
      (0x13 ≤ (opOf w).toNat ∧ (opOf w).toNat ≤ 0x1F) ∨ 0x22 ≤ (opOf w).toNat) →
    executeWord w s = .next { s with rsp := some ⟨.illegal, 0⟩ } ∧
    executeWord 0 s = .next { s with rsp := some ⟨.illegal, 0⟩ }

/-- A listed opcode with a non-zero reserved bit of its format answers ILLEGAL with the same effect (R64). -/
def Obligations.ReservedBitIsIllegal : Prop :=
  ∀ (w : CmdWord) (s : State) (o : Opcode), s.cfg.legal → s.fault = false → opOf w = o.code →
    (match o.format with
      | .n => w.extractLsb' 8 120 ≠ 0
      | .d => w.extractLsb' 8 56 ≠ 0
      | .i => w.extractLsb' 8 56 ≠ 0
      | .id => w.extractLsb' 8 24 ≠ 0) →
    executeWord w s = .next { s with rsp := some ⟨.illegal, 0⟩ }

/-- ILLEGAL is not sticky: the engine stays ready and the next word executes as if the illegal one had not been sent (R122). -/
def Obligations.IllegalIsNotSticky : Prop :=
  ∀ (w w' : CmdWord) (s : State), s.cfg.legal → s.fault = false → Safety.illegalWord w = true →
    ∃ t, executeWord w s = .next t ∧ t.fault = false ∧ executeWord w' t = executeWord w' s

/-! ### Faults -/

/-- While FAULT = 1 every word but the status reads answers FAULTED and changes nothing else, RESET and illegal words
included; RDSTAT and RDFINFO execute, or are ILLEGAL with a reserved bit set; `fault_o` is 1 (R127). -/
def Obligations.FaultedStateAnswersFaulted : Prop :=
  ∀ (s : State), s.cfg.legal → s.fault = true →
    faultO s = true ∧
    (∀ w : CmdWord, opOf w ≠ 0x20 → opOf w ≠ 0x21 → executeWord w s = .next { s with rsp := some ⟨.faulted, 0⟩ }) ∧
    (∀ i : Instr, i ≠ .rdstat → i ≠ .rdfinfo → exec i s = .next { s with rsp := some ⟨.faulted, 0⟩ }) ∧
    executeWord (encode .rdstat) s = .next { s with rsp := some ⟨.ok, statusWord s⟩ } ∧
    executeWord (encode .rdfinfo) s = .next { s with rsp := some ⟨.ok, s.finfo⟩ } ∧
    (∀ w : CmdWord, opOf w = 0x20 ∨ opOf w = 0x21 → w.extractLsb' 8 120 ≠ 0 →
      executeWord w s = .next { s with rsp := some ⟨.illegal, 0⟩ })

/-- RANGE: BGET or BINC with an index at or above `m`, in the ready state, sets FAULT, CAUSE = 2 and FINFO = IDX, answers
(RANGE, 0) and writes nothing else (R124, R126). -/
def Obligations.RangeFaultEntry : Prop :=
  ∀ (s : State) (idx : Value) (delta : BitVec 32), s.cfg.legal → s.fault = false → s.cfg.m.toNat ≤ idx.toNat →
    exec (.bget idx) s = .next { s with fault := true, cause := 2, finfo := idx, rsp := some ⟨.range, 0⟩ } ∧
    exec (.binc idx delta) s = .next { s with fault := true, cause := 2, finfo := idx, rsp := some ⟨.range, 0⟩ }

/-- No command and no port event without `rst` clears the fault state or changes CAUSE and FINFO of the first fault, and
buckets and COUNT stay too; hardware reset clears it (R128, R129). -/
def Obligations.FaultLastsUntilHardwareReset : Prop :=
  ∀ (s : State), s.cfg.legal → s.fault = true →
    (∀ i t, exec i s = .next t →
      t.fault = true ∧ t.cause = s.cause ∧ t.finfo = s.finfo ∧ t.mem = s.mem ∧ t.count = s.count) ∧
    ((currentInput s).rst = false → ∃ t, step s = .next t ∧
      t.fault = true ∧ t.cause = s.cause ∧ t.finfo = s.finfo ∧ t.mem = s.mem ∧ t.count = s.count) ∧
    ((currentInput s).rst = true → ∃ t, step s = .next t ∧ t.fault = false ∧ t.cause = 0 ∧ t.finfo = 0)

/-- FAULT is set by a range fault only: a command that takes the machine from ready to faulted is a BGET or BINC with an
index at or above `m`, and a port event does so only by such a word (R25, R124, R126). -/
def Obligations.OnlyRangeSetsFault : Prop :=
  (∀ (s t : State) (i : Instr), exec i s = .next t → s.fault = false → t.fault = true →
    ∃ idx, s.cfg.m.toNat ≤ idx.toNat ∧ (i = .bget idx ∨ ∃ delta, i = .binc idx delta)) ∧
  (∀ s t : State, step s = .next t → s.fault = false → t.fault = true →
    ∃ idx, Safety.bucketOperand (currentInput s).cmdData = some idx ∧ s.cfg.m.toNat ≤ idx.toNat)

/-- The membership commands, RESET and the accessors never answer RANGE (R123). -/
def Obligations.MembershipNeverRange : Prop :=
  ∀ (s t : State) (i : Instr), (∀ idx, i ≠ .bget idx) → (∀ idx delta, i ≠ .binc idx delta) → exec i s = .next t →
    ∃ r, t.rsp = some r ∧ r.status ≠ .range

/-- An invalid configuration yields no instance: construction refuses it, exactly for the configurations R131 lists, and
no command or port event runs on one (R131, for bounds that R8 allows). -/
def Obligations.InvalidConfigurationRefused : Prop :=
  ∀ c : Config, c.boundsLegal →
    (c.legal → construct c = .next (State.resetWith c)) ∧
    ((c.m.toNat = 0 ∨ c.mMax.toNat < c.m.toNat ∨ c.k.toNat = 0 ∨ c.kMax.toNat < c.k.toNat ∨
        c.b.toNat = 0 ∨ 8 < c.b.toNat) ↔ construct c = .refused .invalidConfiguration) ∧
    (¬ c.legal → ∀ (s : State) (i : Instr), s.cfg = c →
      exec i s = .refused .invalidConfiguration ∧ step s = .refused .invalidConfiguration)

/-! ### Reset and ports -/

/-- Hardware reset gives the reset values of R33 from any state: buckets, padding bits, COUNT, FAULT, CAUSE, FINFO are 0
and the configuration is as configured; no command is accepted and no response pends after it (R139); nothing is
delivered, also where `rsp_ready` meets `rst` (R141 for a command in flight; that `rst` comes before a delivery is the
model's choice, log 5). That the event takes one input of the host's list, and keeps its record, is the model's, log 3. -/
def Obligations.HardwareResetValues : Prop :=
  ∀ s : State, s.cfg.legal → (currentInput s).rst = true →
    cmdReady s = false ∧ accepts s = false ∧
    ∃ t, step s = .next t ∧ (∀ j, t.bkt j = 0) ∧ (∀ p, memBit t.mem p = false) ∧
      t.count = 0 ∧ t.fault = false ∧ t.cause = 0 ∧ t.finfo = 0 ∧ t.cfg = s.cfg ∧
      t.rsp = none ∧ t.inputs = s.inputs.tail ∧ t.delivered = s.delivered

/-- A hardware reset with a response not yet delivered discards the command: whatever it had done, the state after reset
is the reset state and no response is delivered for it; the host's inputs are still its own (R141). -/
def Obligations.ResetDiscardsCommandInFlight : Prop :=
  ∀ (s t : State) (w : CmdWord), s.cfg.legal → executeWord w s = .next t → (currentInput s).rst = true →
    ∃ u v, step t = .next u ∧ step s = .next v ∧ Safety.SameArch u v ∧ Safety.SameArch u (State.resetWith s.cfg) ∧
      u.rsp = none ∧ u.delivered = s.delivered ∧ u.inputs = s.inputs.tail

/-- The output ports show the state: `rsp_valid` a pending response, with its status code 0 to 3 and its value, and
`fault_o` FAULT (R53, R59, R134). That they show it at an event with `rst = 1` too is the model's choice (log 11); what
`rsp_status` and `rsp_value` show with no response pending is not stated (log 6). -/
def Obligations.OutputPortsShowTheState : Prop :=
  ∀ s : State, faultO s = s.fault ∧ (rspValid s = true ↔ ∃ r, s.rsp = some r) ∧
    (∀ r, s.rsp = some r → rspValue s = some r.value ∧
      rspStatus s = some (match r.status with | .ok => 0 | .illegal => 1 | .range => 2 | .faulted => 3))

/-- Without `rsp_ready` a presented response stays as it is (R54). That no command is accepted meanwhile is the model's
choice: its engine holds one response, where R77 allows one that can hold more (log 5); the inputs are log 3's. -/
def Obligations.ResponseHeldUntilTaken : Prop :=
  ∀ (s : State) (r : Response), s.cfg.legal → s.rsp = some r → (currentInput s).rst = false →
    (currentInput s).rspReady = false →
    accepts s = false ∧ step s = .next { s with inputs := s.inputs.tail }

/-- With no command presented and no reset the engine waits: only the handshake moves (R139, R78; the host side is the
model's, log 3). -/
def Obligations.IdleEventChangesNoState : Prop :=
  ∀ s : State, s.cfg.legal → (currentInput s).rst = false → (currentInput s).cmdValid = false →
    ∃ t, step s = .next t ∧ t = { s with rsp := t.rsp, inputs := s.inputs.tail, delivered := t.delivered } ∧
      (t.rsp = s.rsp ∧ t.delivered = s.delivered ∨
        ∃ r, s.rsp = some r ∧ t.rsp = none ∧ t.delivered = s.delivered ++ [r])

/-- What an event delivers is the pending response, exactly where `rsp_valid`, `rsp_ready` and no reset meet (R54, R78); it
then pends no more, unless a word accepted at the same event has put its own response in its place. With `rst` nothing
is delivered: R141 for a command in flight, and the model's choice that `rst` comes before a delivery (log 5). -/
def Obligations.DeliveryTakesThePendingResponse : Prop :=
  ∀ s t : State, step s = .next t →
    (∀ r, s.rsp = some r → (currentInput s).rspReady = true → (currentInput s).rst = false →
      t.delivered = s.delivered ++ [r] ∧ (accepts s = false → t.rsp = none)) ∧
    (s.rsp = none ∨ (currentInput s).rspReady = false ∨ (currentInput s).rst = true → t.delivered = s.delivered)

/-- Served by a host that presents words and takes every response, the engine answers each word exactly once, in order,
as the words executed one after another answer, and ends in their last state (R60, R78, R152; the host side and the
timing of acceptance are the model's, logs 3 and 5). -/
def Obligations.WordsAreServedInOrder : Prop :=
  ∀ (ws : List CmdWord) (s : State), s.cfg.legal → s.rsp = none →
    s.inputs = ws.map PortIn.command ++ [{ rst := false, cmdValid := false, cmdData := 0, rspReady := true }] →
    ∃ t u log, Safety.Runs (Safety.hostless s) log u ∧ log.map (fun e => e.1) = ws ∧
      Host.Core.run Sys2Proof.core (ws.length + 1) s = .next t ∧
      t.delivered = s.delivered ++ log.map (fun e => e.2) ∧ t.rsp = none ∧ t.inputs = [] ∧
      Safety.hostless t = Safety.hostless u

/-! ### Invariants and whole-machine rules -/

/-- The invariant holds at reset, for every legal configuration, and at `State.reset`, whose configuration and scratch
contents are the model's choice (R33, R139; logs 1, 2, 4). -/
def Obligations.InvAtReset : Prop :=
  (∀ c : Config, c.legal → Safety.Inv (State.resetWith c)) ∧ Safety.Inv State.reset

/-- Every step keeps the invariant: canonical storage inside NBYTES, zero padding (R42), coherent fault state (R26, R27),
legal configuration (R140), sound responses (R58). -/
def Obligations.StepKeepsInv : Prop :=
  ∀ s t : State, Safety.Inv s → step s = .next t → Safety.Inv t

/-- A machine with a legal configuration never stops: every command and every port event gives a next state, so no
storage or bucket hole is reached (R12, R125, R39). -/
def Obligations.LegalMachineNeverStops : Prop :=
  ∀ s : State, s.cfg.legal → (∀ i, Safety.goesOn (exec i s)) ∧ (∀ w, Safety.goesOn (executeWord w s)) ∧
    Safety.goesOn (step s)

/-- COUNT is written by ADD, TESTADD, TESTREM when it returns true, and RESET, and by no other command (R23). -/
def Obligations.CountWriters : Prop :=
  ∀ (s t : State) (i : Instr), exec i s = .next t → t.count ≠ s.count →
    (∃ dig, i = .add dig) ∨ (∃ dig, i = .testadd dig) ∨ i = .reset ∨
    (∃ dig, i = .testrem dig ∧ t.rsp = some ⟨.ok, 1⟩)

/-- COUNT wraps modulo `2^64` both ways (R24). -/
def Obligations.CountWraps : Prop :=
  ∀ (s t : State) (dig : Value), s.fault = false →
    (exec (.add dig) s = .next t → t.count.toNat = (s.count.toNat + 1) % 2 ^ 64) ∧
    (exec (.testadd dig) s = .next t → t.count.toNat = (s.count.toNat + 1) % 2 ^ 64) ∧
    (exec (.testrem dig) s = .next t → t.rsp = some ⟨.ok, 1⟩ → (t.count.toNat + 1) % 2 ^ 64 = s.count.toNat)

/-- No step changes the configuration (R140, R22). -/
def Obligations.ConfigurationNeverChanges : Prop :=
  ∀ s t : State, step s = .next t → t.cfg = s.cfg

/-- The storage layout, padding bits and scratch contents are not observable: two states that agree on the configuration,
the buckets, COUNT and the fault state answer every word alike and go on agreeing (R43, R73, R119). -/
def Obligations.LayoutNotObservable : Prop :=
  ∀ (s s' t : State) (w : CmdWord), s.cfg.legal → Safety.SameArch s s' → executeWord w s = .next t →
    ∃ t', executeWord w s' = .next t' ∧ Safety.SameArch t t' ∧ t'.rsp = t.rsp

/-- BGET, TEST, CAP, KRD, CNT, RDSTAT and RDFINFO change no state but the response, and repeating one gives the same;
the only one of them with an effect is BGET where it answers RANGE, its index being at or above `m` (R49). -/
def Obligations.ReadsHaveNoSideEffect : Prop :=
  ∀ (s t : State) (i : Instr),
    ((∃ idx, i = .bget idx) ∨ (∃ dig, i = .test dig) ∨ i = .cap ∨ i = .krd ∨ i = .cnt ∨ i = .rdstat ∨ i = .rdfinfo) →
    exec i s = .next t →
    (t.rsp ≠ some ⟨.range, 0⟩ → t = { s with rsp := t.rsp } ∧ exec i t = .next t) ∧
    (t.rsp = some ⟨.range, 0⟩ → ∃ idx, i = .bget idx ∧ s.cfg.m.toNat ≤ idx.toNat)

/-! ### Buckets -/

/-- A bucket write sets the bucket's bits and no other storage bit (R40), so it reads back and every other bucket is as
before (R44). -/
def Obligations.BucketWriteReadsBack : Prop :=
  ∀ (s : State) (j v : Nat), j < s.cfg.m.toNat → v ≤ maxVal s.cfg →
    ∃ t, writeBucket s j v = .ok t ∧ t = { s with mem := t.mem } ∧ t.bkt j = v ∧
      (∀ n, n < s.cfg.b.toNat → memBit t.mem (j * s.cfg.b.toNat + n) = v.testBit n) ∧ Safety.StoresOnly s t [j]

/-- Every bucket value lies in `[0, MAX]`, in every state (R87). -/
def Obligations.BucketsWithinMax : Prop := ∀ (s : State) (j : Nat), s.bkt j ≤ maxVal s.cfg

/-- For `j` below `m`, `Bkt(j)` is the sum of its storage bits weighted by `2^t`, they lie in at most two consecutive bytes,
and a bucket read answers it (R39). -/
def Obligations.BucketReadIsItsBits : Prop :=
  ∀ (s : State) (j : Nat), s.cfg.legal → j < s.cfg.m.toNat →
    readBucket s j = .ok (s.bkt j) ∧ s.bkt j ≤ maxVal s.cfg ∧
    s.bkt j = (Finset.range s.cfg.b.toNat).sum (fun t =>
      ((memGet s.mem ((j * s.cfg.b.toNat + t) / 8)).getLsbD ((j * s.cfg.b.toNat + t) % 8)).toNat * 2 ^ t) ∧
    (j * s.cfg.b.toNat + s.cfg.b.toNat - 1) / 8 ≤ j * s.cfg.b.toNat / 8 + 1

/-- `ZeroAll()` writes 0 to every storage byte, so every bucket and every padding bit is 0, and changes nothing else; BRESET
and RESET are it (R41). -/
def Obligations.ZeroAllClearsStorage : Prop :=
  ∀ s : State, zeroAll s = { s with mem := (zeroAll s).mem } ∧
    (∀ a, a < nbytes s.cfg → memGet (zeroAll s).mem a = 0) ∧
    (∀ j, j < s.cfg.m.toNat → (zeroAll s).bkt j = 0) ∧
    (∀ p, s.cfg.m.toNat * s.cfg.b.toNat ≤ p → p < 8 * nbytes s.cfg → memBit (zeroAll s).mem p = false) ∧
    (s.cfg.legal → s.fault = false →
      (∃ t, exec .breset s = .next t ∧ t.mem = (zeroAll s).mem) ∧ ∃ t, exec .reset s = .next t ∧ t.mem = (zeroAll s).mem)

/-- BGET answers the bucket and changes nothing else, or raises RANGE (R80, R79). -/
def Obligations.BgetReadsBucket : Prop :=
  ∀ (s : State) (idx : Value), s.cfg.legal → s.fault = false →
    exec (.bget idx) s =
      if idx.toNat < s.cfg.m.toNat then .next { s with rsp := some ⟨.ok, BitVec.ofNat 64 (s.bkt idx.toNat)⟩ }
      else .next { s with fault := true, cause := 2, finfo := idx, rsp := some ⟨.range, 0⟩ }

/-- BINC adds the signed delta to the bucket on exact integers, clamps to `[0, MAX]`, writes and answers that, and
changes no other bucket and no other state; an index at or above `m` raises RANGE (R81). -/
def Obligations.BincAddsClamped : Prop :=
  ∀ (s : State) (idx : Value) (delta : BitVec 32), s.cfg.legal → s.fault = false →
    (idx.toNat < s.cfg.m.toNat →
      ∃ (t : State) (v : Nat), exec (.binc idx delta) s = .next t ∧
        (v : Int) = min (max ((s.bkt idx.toNat : Int) + delta.toInt) 0) (2 ^ s.cfg.b.toNat - 1) ∧
        t.bkt idx.toNat = v ∧ t = { s with mem := t.mem, rsp := some ⟨.ok, BitVec.ofNat 64 v⟩ } ∧
        Safety.StoresOnly s t [idx.toNat]) ∧
    (s.cfg.m.toNat ≤ idx.toNat →
      exec (.binc idx delta) s = .next { s with fault := true, cause := 2, finfo := idx, rsp := some ⟨.range, 0⟩ })

/-- A positive BINC on a bucket at MAX leaves it there, and no BINC makes a bucket exceed MAX or changes a neighbour (R82). -/
def Obligations.BincSaturatesWithoutSpill : Prop :=
  ∀ (s t : State) (idx : Value) (delta : BitVec 32), s.fault = false → exec (.binc idx delta) s = .next t →
    (s.bkt idx.toNat = maxVal s.cfg → 0 < delta.toInt → t.bkt idx.toNat = maxVal s.cfg) ∧
    (∀ j, t.bkt j ≤ maxVal s.cfg) ∧ (∀ j, j ≠ idx.toNat → t.bkt j = s.bkt j)

/-- Underflow clamps to 0 and is no error, for every caller: a BINC whose exact sum is negative, and a TESTREM that takes
a bucket of its list down more often than its value, write 0 and complete with OK, without a fault (R83, R132). -/
def Obligations.UnderflowClampsToZero : Prop :=
  ∀ (s : State), s.cfg.legal → s.fault = false →
    (∀ (idx : Value) (delta : BitVec 32), idx.toNat < s.cfg.m.toNat → (s.bkt idx.toNat : Int) + delta.toInt < 0 →
      ∃ t, exec (.binc idx delta) s = .next t ∧ t.bkt idx.toNat = 0 ∧ t.rsp = some ⟨.ok, 0⟩ ∧ t.fault = false) ∧
    (∀ (dig : Value) (j : Nat), Safety.isMember s (indexList s.cfg dig) →
      (s.bkt j : Int) - ((indexList s.cfg dig).count j : Int) < 0 →
      ∃ t, exec (.testrem dig) s = .next t ∧ t.bkt j = 0 ∧ t.rsp = some ⟨.ok, 1⟩ ∧ t.fault = false)

/-- BDEC is BINC with delta -1: it writes and answers the bucket less one, 0 on a zero bucket (R85, R70). -/
def Obligations.BdecDecrements : Prop :=
  ∀ (s : State) (idx : Value), s.cfg.legal → s.fault = false → idx.toNat < s.cfg.m.toNat →
    ∃ t, exec (expandPseudo (.bdec idx)) s = .next t ∧ t.bkt idx.toNat = max (s.bkt idx.toNat - 1) 0 ∧
      t.rsp = some ⟨.ok, BitVec.ofNat 64 (s.bkt idx.toNat - 1)⟩ ∧
      t = { s with mem := t.mem, rsp := t.rsp } ∧ Safety.StoresOnly s t [idx.toNat]

/-- BRESET zeroes every bucket and padding bit, answers 0, leaves COUNT and the rest, and twice equals once (R84). -/
def Obligations.BresetZeroesBuckets : Prop :=
  ∀ s : State, s.cfg.legal → s.fault = false →
    ∃ t, exec .breset s = .next t ∧ t = { s with mem := t.mem, rsp := some ⟨.ok, 0⟩ } ∧
      (∀ j, j < s.cfg.m.toNat → t.bkt j = 0) ∧
      (∀ p, p < 8 * nbytes s.cfg → memBit t.mem p = false) ∧ exec .breset t = .next t

/-! ### Index derivation -/

/-- The index list: `k` entries, entry `i` is `(lower + upper * i) mod m` on exact integers, each below `m`; it repeats
when `upper mod m = 0` (all `k` equal `lower mod m`), when `m = 1`, and when `k > m`; the running example (R91). -/
def Obligations.IndexListFollowsDoubleHashing : Prop :=
  (∀ (c : Config) (dig : Value), c.legal →
    (indexList c dig).length = c.k.toNat ∧
    (∀ i, i < c.k.toNat → (indexList c dig)[i]? =
      some (((dig.extractLsb' 0 32).toNat + (dig.extractLsb' 32 32).toNat * i) % c.m.toNat)) ∧
    (∀ j ∈ indexList c dig, j < c.m.toNat) ∧
    ((dig.extractLsb' 32 32).toNat % c.m.toNat = 0 →
      ∀ j ∈ indexList c dig, j = (dig.extractLsb' 0 32).toNat % c.m.toNat) ∧
    (∀ i i', i < c.k.toNat → i' < c.k.toNat → i' ≤ i →
      ((dig.extractLsb' 32 32).toNat * (i - i')) % c.m.toNat = 0 → (indexList c dig)[i]? = (indexList c dig)[i']?) ∧
    (c.m.toNat = 1 → ∀ j ∈ indexList c dig, j = 0) ∧
    (c.m.toNat < c.k.toNat → ¬ (indexList c dig).Nodup)) ∧
  indexList Config.example16 0x0000000300000005 = [5, 8, 11]

/-- Computing `lower + upper * i` in 64 bits gives the exact integer, and adding `upper` modulo `m` round by round gives
the same list; wrapping the sum at 32 bits gives other indices (R92). -/
def Obligations.IndexDatapathIs64Bits : Prop :=
  (∀ (c : Config) (dig : Value), c.legal →
    (∀ i, i < c.k.toNat →
      ((dig.extractLsb' 0 32).setWidth 64 + (dig.extractLsb' 32 32).setWidth 64 * BitVec.ofNat 64 i).toNat =
        digestLower dig + digestUpper dig * i) ∧
    indexAt c dig 0 = digestLower dig % c.m.toNat ∧
    (∀ i, indexAt c dig (i + 1) = (indexAt c dig i + digestUpper dig) % c.m.toNat)) ∧
  ∃ (c : Config) (dig : Value) (i : Nat), c.legal ∧ i < c.k.toNat ∧
    (dig.extractLsb' 0 32 + dig.extractLsb' 32 32 * BitVec.ofNat 32 i).toNat % c.m.toNat ≠ indexAt c dig i

/-! ### Membership commands -/

/-- TEST answers 1 exactly when every indexed bucket is non-zero and changes nothing else; on an all-zero array it
answers 0 (R95, R93). -/
def Obligations.TestAnswersMembership : Prop :=
  ∀ (s : State) (dig : Value), s.cfg.legal → s.fault = false →
    (Safety.isMember s (indexList s.cfg dig) → exec (.test dig) s = .next { s with rsp := some ⟨.ok, 1⟩ }) ∧
    (¬ Safety.isMember s (indexList s.cfg dig) → exec (.test dig) s = .next { s with rsp := some ⟨.ok, 0⟩ }) ∧
    ((∀ j, j < s.cfg.m.toNat → s.bkt j = 0) → exec (.test dig) s = .next { s with rsp := some ⟨.ok, 0⟩ })

/-- ADD: every indexed bucket goes up once per occurrence, saturating at MAX, COUNT goes up modulo `2^64`, the answer is
0, and nothing else changes (R96). -/
def Obligations.AddIncrementsAndCounts : Prop :=
  ∀ (s : State) (dig : Value), s.cfg.legal → s.fault = false →
    ∃ t, exec (.add dig) s = .next t ∧
      (∀ j, t.bkt j = if j ∈ indexList s.cfg dig
        then min (s.bkt j + (indexList s.cfg dig).count j) (maxVal s.cfg) else s.bkt j) ∧
      t = { s with mem := t.mem, count := s.count + 1, rsp := some ⟨.ok, 0⟩ } ∧
      Safety.StoresOnly s t (indexList s.cfg dig)

/-- TESTADD: the answer is membership before the command, the buckets and COUNT change as by ADD whatever the answer, and
nothing else changes (R97). -/
def Obligations.TestaddTestsThenIncrements : Prop :=
  ∀ (s : State) (dig : Value), s.cfg.legal → s.fault = false →
    ∃ t r, exec (.testadd dig) s = .next t ∧
      (r = if Safety.isMember s (indexList s.cfg dig) then (1 : Value) else 0) ∧
      (∀ j, t.bkt j = if j ∈ indexList s.cfg dig
        then min (s.bkt j + (indexList s.cfg dig).count j) (maxVal s.cfg) else s.bkt j) ∧
      t = { s with mem := t.mem, count := s.count + 1, rsp := some ⟨.ok, r⟩ } ∧
      Safety.StoresOnly s t (indexList s.cfg dig)

/-- TESTADD equals TEST then ADD: TEST's response on the state, ADD's next state; and reading and incrementing bucket by
bucket, round by round, gives the same answer and the same storage (R101). -/
def Obligations.TestaddIsTestThenAdd : Prop :=
  ∀ (s : State) (dig : Value), s.cfg.legal → s.fault = false →
    ∃ t u v w, exec (.testadd dig) s = .next t ∧ exec (.test dig) s = .next u ∧ exec (.add dig) s = .next v ∧
      exec (.add dig) u = .next w ∧ t.rsp = u.rsp ∧ { t with rsp := none } = { v with rsp := none } ∧ w = v ∧
      ∃ r x, Safety.interleavedTestadd (indexList s.cfg dig) s = .ok (r, x) ∧
        t.rsp = some ⟨.ok, if r = true then 1 else 0⟩ ∧ t.mem = x.mem

/-- TESTREM: a member loses one per occurrence, clamped at 0, COUNT goes down modulo `2^64`, the answer is 1; a
non-member answers 0 and leaves storage, COUNT and fault state as they are. Only the scratch buffer besides changes (R98,
R102). -/
def Obligations.TestremRemovesAMember : Prop :=
  ∀ (s : State) (dig : Value), s.cfg.legal → s.fault = false →
    (Safety.isMember s (indexList s.cfg dig) →
      ∃ t, exec (.testrem dig) s = .next t ∧
        (∀ j, t.bkt j = s.bkt j - (indexList s.cfg dig).count j) ∧
        t = { s with mem := t.mem, count := s.count - 1, rsp := some ⟨.ok, 1⟩,
                     scratch := t.scratch, scratchEra := t.scratchEra } ∧
        Safety.StoresOnly s t (indexList s.cfg dig)) ∧
    (¬ Safety.isMember s (indexList s.cfg dig) →
      ∃ t, exec (.testrem dig) s = .next t ∧
        t = { s with rsp := some ⟨.ok, 0⟩, scratch := t.scratch, scratchEra := t.scratchEra })

/-- The rounds of ADD, TESTADD and TESTREM act once per occurrence: a bucket that occurs `c` times ends at
`min(v + c, MAX)`, or at `max(v - c, 0)` (R100). -/
def Obligations.RoundsPerOccurrence : Prop :=
  ∀ (s : State) (dig : Value) (j : Nat), s.cfg.legal → s.fault = false → j ∈ indexList s.cfg dig →
    ∃ t u w, exec (.add dig) s = .next t ∧ exec (.testadd dig) s = .next u ∧ exec (.testrem dig) s = .next w ∧
      t.bkt j = min (s.bkt j + (indexList s.cfg dig).count j) (maxVal s.cfg) ∧
      u.bkt j = min (s.bkt j + (indexList s.cfg dig).count j) (maxVal s.cfg) ∧
      (w.rsp = some ⟨.ok, 1⟩ →
        (w.bkt j : Int) = max ((s.bkt j : Int) - ((indexList s.cfg dig).count j : Int)) 0)

/-- RESET zeroes every bucket, the padding bits and COUNT, answers 0, and touches nothing else; twice equals once; after
it CNT answers 0 and TEST answers 0 for every digest (R99, R105). -/
def Obligations.ResetEmptiesTheFilter : Prop :=
  ∀ s : State, s.cfg.legal → s.fault = false →
    ∃ t, exec .reset s = .next t ∧ t = { s with mem := t.mem, count := 0, rsp := some ⟨.ok, 0⟩ } ∧
      (∀ j, j < s.cfg.m.toNat → t.bkt j = 0) ∧ (∀ p, p < 8 * nbytes s.cfg → memBit t.mem p = false) ∧
      exec .reset t = .next t ∧ exec .cnt t = .next { t with rsp := some ⟨.ok, 0⟩ } ∧
      ∀ dig, exec (.test dig) t = .next { t with rsp := some ⟨.ok, 0⟩ }

/-- From a ready state RESET and hardware reset give the same architectural state, storage included; while faulted RESET
is not executed (R142). -/
def Obligations.ResetMatchesHardwareReset : Prop :=
  ∀ s : State, Safety.Inv s →
    (s.fault = false → ∃ t, exec .reset s = .next t ∧ Safety.SameArch t (hardReset s) ∧ t.mem = (hardReset s).mem) ∧
    (s.fault = true → exec .reset s = .next { s with rsp := some ⟨.faulted, 0⟩ })

/-- ADD followed at once by TESTREM of the same digest answers 1. Where no touched bucket saturates, every bucket and
COUNT are restored; a touched bucket at MAX before ends below MAX, at `MAX - 1` if it occurs once (R103). -/
def Obligations.AddThenTestremRestores : Prop :=
  ∀ (s : State) (dig : Value), s.cfg.legal → s.fault = false →
    ∃ t u, exec (.add dig) s = .next t ∧ exec (.testrem dig) t = .next u ∧ u.rsp = some ⟨.ok, 1⟩ ∧
      ((∀ j ∈ indexList s.cfg dig, s.bkt j + (indexList s.cfg dig).count j ≤ maxVal s.cfg) →
        (∀ j, u.bkt j = s.bkt j) ∧ u.count = s.count) ∧
      (∀ j ∈ indexList s.cfg dig, s.bkt j = maxVal s.cfg →
        u.bkt j < maxVal s.cfg ∧ ((indexList s.cfg dig).count j = 1 → u.bkt j = maxVal s.cfg - 1))

/-- No false negatives before a removal: after an ADD or TESTADD of a digest, whatever words follow that are illegal or
never lower a bucket, none answering RANGE, TEST of that digest answers (OK, 1) (R104). -/
def Obligations.NoFalseNegativeBeforeRemoval : Prop :=
  ∀ (s t u : State) (dig : Value) (log : List (CmdWord × Response)), s.cfg.legal → s.fault = false →
    (exec (.add dig) s = .next t ∨ exec (.testadd dig) s = .next t) → Safety.Runs t log u →
    (∀ e ∈ log, ∀ i, decode e.1 = .ok i → Safety.neverLowers i = true) → (∀ e ∈ log, e.2.status ≠ .range) →
    exec (.test dig) u = .next { u with rsp := some ⟨.ok, 1⟩ }

/-- A TESTREM whose list holds a bucket more often than the bucket's value clamps it at 0 and still answers 1; the example
of R106. -/
def Obligations.TestremClampsRepeatedBucket : Prop :=
  (∀ (s : State) (dig : Value) (j : Nat), s.cfg.legal → s.fault = false →
    Safety.isMember s (indexList s.cfg dig) → 2 ≤ (indexList s.cfg dig).count j →
    s.bkt j < (indexList s.cfg dig).count j →
    ∃ t, exec (.testrem dig) s = .next t ∧ t.rsp = some ⟨.ok, 1⟩ ∧ t.bkt j = 0) ∧
  (∀ s : State, s.cfg.legal → s.fault = false → s.cfg.m = 8 → s.cfg.k = 3 → s.bkt 2 = 1 →
    indexList s.cfg 0x0000000800000002 = [2, 2, 2] ∧
    ∃ t, exec (.testrem 0x0000000800000002) s = .next t ∧ t.rsp = some ⟨.ok, 1⟩ ∧ t.bkt 2 = 0)

/-- After a state with COUNT = 0 (a reset, or a RESET), COUNT is the number of ADD and TESTADD executed less the number of
TESTREM that returned 1, modulo `2^64`, as long as no RESET is executed (R107). -/
def Obligations.CountIsAddsMinusRemovals : Prop :=
  ∀ (s u : State) (log : List (CmdWord × Response)), s.count = 0 → Safety.Runs s log u →
    (∀ e ∈ log, decode e.1 = .ok .reset → e.2.status ≠ .ok) →
    ((u.count.toNat : Int) = ((log.countP Safety.isAdd : Int) - (log.countP Safety.isRemoval : Int)) % 2 ^ 64)

/-! ### Accessors -/

/-- CAP answers `m`, KRD answers `k`, CNT answers COUNT, and nothing else changes; no step changes what CAP and KRD answer
(R114, R115, R116). -/
def Obligations.AccessorsAnswer : Prop :=
  ∀ s : State, s.cfg.legal → s.fault = false →
    exec .cap s = .next { s with rsp := some ⟨.ok, s.cfg.m⟩ } ∧
    exec .krd s = .next { s with rsp := some ⟨.ok, s.cfg.k⟩ } ∧
    exec .cnt s = .next { s with rsp := some ⟨.ok, s.count⟩ } ∧
    ∀ t, step s = .next t → t.cfg.m = s.cfg.m ∧ t.cfg.k = s.cfg.k

/-- RDSTAT answers the status word, which holds FAULT in bit 0, CAUSE in bits 7:4 and 0 elsewhere, and RDFINFO answers
FINFO, in either state, and nothing else changes; in a state of the invariant they answer 0 while ready, and `0x21` and an
index at or above `m` while faulted (R117, R118, R28). -/
def Obligations.StatusReadsAnswer : Prop :=
  (∀ s : State, s.cfg.legal →
    exec .rdfinfo s = .next { s with rsp := some ⟨.ok, s.finfo⟩ } ∧
    ∃ v : Value, exec .rdstat s = .next { s with rsp := some ⟨.ok, v⟩ } ∧
      v.extractLsb' 0 1 = BitVec.ofBool s.fault ∧ v.extractLsb' 1 3 = 0 ∧ v.extractLsb' 4 4 = s.cause ∧
      v.extractLsb' 8 56 = 0) ∧
  (∀ s : State, Safety.Inv s →
    (s.fault = false → exec .rdstat s = .next { s with rsp := some ⟨.ok, 0⟩ } ∧
      exec .rdfinfo s = .next { s with rsp := some ⟨.ok, 0⟩ }) ∧
    (s.fault = true → exec .rdstat s = .next { s with rsp := some ⟨.ok, 0x21⟩ } ∧
      ∃ idx : Value, s.cfg.m.toNat ≤ idx.toNat ∧ exec .rdfinfo s = .next { s with rsp := some ⟨.ok, idx⟩ }))

/-! ### Byte transport -/

/-- On a byte transport byte `n` of a command word, and of a response value, is bits `8n + 7 : 8n` (R45), a response reads
back from the bytes of its two words, and no other bytes give it. That the status is one byte with its four high bits 0,
apart from the value's bytes, is the model's choice (log 12). -/
def Obligations.TransportBytesAreLittleEndian : Prop :=
  (∀ i : Instr, (encodeBytes i).length = 16 ∧
    ∀ n, n < 16 → (encodeBytes i)[n]? = some ((encode i).extractLsb' (8 * n) 8)) ∧
  (∀ r : Response, (valueBytes r).length = 8 ∧
    (∀ n, n < 8 → (valueBytes r)[n]? = some (r.value.extractLsb' (8 * n) 8)) ∧
    statusBytes r = [(statusCode r.status).setWidth 8] ∧ responseOfBytes (statusBytes r) (valueBytes r) = some r) ∧
  (∀ (status value : List Byte) (r : Response), responseOfBytes status value = some r →
    statusBytes r = status ∧ valueBytes r = value)
end

