-- ==== Sys2Proof/Laws/Memory.lean ====
section
/-! SUPPORT. The laws of the storage bytes: read after write, and that every memory operation keeps the canonical form. -/

namespace Sys2Proof.Machine

@[simp] theorem memGet_nil (a : Nat) : memGet [] a = 0 := rfl

theorem memGet_cons (c : Nat) (x : Byte) (r : List Host.Cell) (a : Nat) :
    memGet ((c, x) :: r) a = if c = a then x else memGet r a := rfl

/-- Leaving cells out by a test on their address: those kept read as before, those left out read as 0. -/
theorem memGet_filter (q : Nat → Bool) (m : List Host.Cell) (a : Nat) :
    memGet (m.filter (fun c => q c.1)) a = if q a then memGet m a else 0 := by
  induction m with
  | nil => simp
  | cons c r ih =>
    obtain ⟨c, x⟩ := c
    by_cases hq : q c
    · simp only [List.filter_cons, hq, if_true, memGet_cons, ih]
      by_cases hc : c = a
      · subst hc; simp [hq]
      · simp [hc]
    · have hf : ((c, x) :: r).filter (fun c => q c.1) = r.filter (fun c => q c.1) := by simp [hq]
      rw [hf, ih, memGet_cons]
      by_cases hc : c = a
      · subst hc; simp [hq]
      · simp [hc]

/-- An erased address reads as 0, every other as before. -/
theorem memGet_memErase (m : List Host.Cell) (a a' : Nat) :
    memGet (memErase m a) a' = if a' = a then 0 else memGet m a' := by
  unfold memErase
  rw [memGet_filter (fun c => c != a)]
  by_cases h : a' = a <;> simp [h]

/-- An insertion at an address that reads as 0 through no cell. -/
theorem memGet_memInsert (m : List Host.Cell) (a : Nat) (v : Byte) (a' : Nat) (h : ∀ c ∈ m, c.1 ≠ a) :
    memGet (memInsert m a v) a' = if a' = a then v else memGet m a' := by
  induction m with
  | nil => simp [memInsert, memGet_cons, eq_comm]
  | cons c r ih =>
    obtain ⟨c, x⟩ := c
    have hc : c ≠ a := h (c, x) (by simp)
    have hr := ih (fun d hd => h d (by simp [hd]))
    unfold memInsert
    split
    · simp only [memGet_cons, eq_comm (a := a)]
    · simp only [memGet_cons, hr]
      by_cases e : c = a'
      · subst e; simp [hc]
      · simp [e]

theorem memErase_ne (m : List Host.Cell) (a : Nat) : ∀ c ∈ memErase m a, c.1 ≠ a := by
  intro c hc
  simpa using (List.mem_filter.mp hc).2

/-- Read after write, for any memory: the byte written reads back, every other byte is as before. -/
theorem memGet_memPut (m : List Host.Cell) (a : Nat) (v : Byte) (a' : Nat) :
    memGet (memPut m a v) a' = if a' = a then v else memGet m a' := by
  unfold memPut
  split
  · next h => subst h; exact memGet_memErase m a a'
  · rw [memGet_memInsert _ _ _ _ (memErase_ne m a), memGet_memErase]
    split <;> rfl

/-- Zeroing below `n`: those bytes read as 0, the others as before. -/
theorem memGet_memZeroBelow (m : List Host.Cell) (n a : Nat) :
    memGet (memZeroBelow m n) a = if a < n then 0 else memGet m a := by
  unfold memZeroBelow
  rw [memGet_filter (fun c => decide (n ≤ c))]
  by_cases h : a < n <;> simp [h, Nat.not_le.mpr, Nat.not_lt.mp]

/-- Past every listed address a byte reads as 0. -/
theorem memGet_past {m : List Host.Cell} {n a : Nat} (h : ∀ c ∈ m, c.1 < n) (ha : n ≤ a) : memGet m a = 0 := by
  induction m with
  | nil => rfl
  | cons c r ih =>
    have := h c (by simp)
    rw [show c :: r = (c.1, c.2) :: r from rfl, memGet_cons, if_neg (by omega)]
    exact ih fun d hd => h d (by simp [hd])

theorem wf_nil : Memory.wf [] := ⟨List.Pairwise.nil, by simp⟩

/-- Leaving cells out keeps the canonical form. -/
theorem wf_filter {m : List Host.Cell} (q : Host.Cell → Bool) (h : Memory.wf m) : Memory.wf (m.filter q) :=
  ⟨h.1.filter q, fun c hc => h.2 c (List.mem_filter.mp hc).1⟩

theorem mem_memInsert (m : List Host.Cell) (a : Nat) (v : Byte) (c : Host.Cell) :
    c ∈ memInsert m a v ↔ c = (a, v) ∨ c ∈ m := by
  induction m with
  | nil => simp [memInsert]
  | cons d r ih =>
    obtain ⟨d, x⟩ := d
    unfold memInsert
    split
    · simp
    · simp only [List.mem_cons, ih]; tauto

theorem wf_memInsert {m : List Host.Cell} {a : Nat} {v : Byte} (h : Memory.wf m) (ha : ∀ c ∈ m, c.1 ≠ a) (hv : v ≠ 0) :
    Memory.wf (memInsert m a v) := by
  refine ⟨?_, fun c hc => ?_⟩
  · have hp := h.1
    clear h
    induction m with
    | nil => simp [memInsert]
    | cons d r ih =>
      obtain ⟨d, x⟩ := d
      have hd : d ≠ a := ha (d, x) (by simp)
      rw [List.pairwise_cons] at hp
      unfold memInsert
      split
      · next hlt =>
        refine List.pairwise_cons.mpr ⟨?_, List.pairwise_cons.mpr hp⟩
        intro c hc
        rcases List.mem_cons.mp hc with rfl | hc
        · exact hlt
        · exact Nat.lt_trans hlt (hp.1 c hc)
      · next hge =>
        refine List.pairwise_cons.mpr ⟨?_, ih (fun c hc => ha c (by simp [hc])) hp.2⟩
        intro c hc
        rcases (mem_memInsert r a v c).mp hc with rfl | hc
        · show d < a; omega
        · exact hp.1 c hc
  · rcases (mem_memInsert m a v c).mp hc with rfl | hc
    · exact hv
    · exact h.2 c hc

/-- Writing a byte keeps the canonical form. -/
theorem wf_memPut {m : List Host.Cell} (h : Memory.wf m) (a : Nat) (v : Byte) : Memory.wf (memPut m a v) := by
  unfold memPut
  split
  · exact wf_filter _ h
  · next hv => exact wf_memInsert (wf_filter _ h) (memErase_ne m a) hv

/-- Zeroing keeps the canonical form. -/
theorem wf_memZeroBelow {m : List Host.Cell} (h : Memory.wf m) (n : Nat) : Memory.wf (memZeroBelow m n) := wf_filter _ h

/-- The addresses listed after a write. -/
theorem mem_memPut {m : List Host.Cell} {a : Nat} {v : Byte} {c : Host.Cell} (h : c ∈ memPut m a v) :
    c = (a, v) ∨ c ∈ m := by
  unfold memPut at h
  split at h
  · exact .inr (List.mem_filter.mp h).1
  · rcases (mem_memInsert _ a v c).mp h with h | h
    · exact .inl h
    · exact .inr (List.mem_filter.mp h).1

/-- A field of `n` bits is below `2^n`. -/
theorem memField_lt (m : List Host.Cell) (p n : Nat) : memField m p n < 2 ^ n := by
  induction n with
  | zero => simp [memField]
  | succ n ih =>
    unfold memField
    have : (memBit m (p + n)).toNat ≤ 1 := Bool.toNat_le _
    have : (memBit m (p + n)).toNat * 2 ^ n ≤ 1 * 2 ^ n := Nat.mul_le_mul_right _ this
    rw [Nat.pow_succ]; omega

/-- A field depends on its own bits only. -/
theorem memField_congr {m m' : List Host.Cell} {p p' n : Nat} (h : ∀ t, t < n → memBit m (p + t) = memBit m' (p' + t)) :
    memField m p n = memField m' p' n := by
  induction n with
  | zero => rfl
  | succ n ih =>
    unfold memField
    rw [ih (fun t ht => h t (by omega)), h n (by omega)]

/-- The bits of a field are the storage bits. -/
theorem memField_testBit (m : List Host.Cell) (p n t : Nat) :
    (memField m p n).testBit t = (decide (t < n) && memBit m (p + t)) := by
  induction n with
  | zero => simp [memField]
  | succ n ih =>
    unfold memField
    have hlt := memField_lt m p n
    rw [Nat.add_comm, Nat.mul_comm, Nat.testBit_two_pow_mul_add _ hlt]
    by_cases h : t < n
    · simp [h, ih, Nat.lt_succ_of_lt h]
    · by_cases e : t = n
      · subst e; cases memBit m (p + t) <;> simp
      · have : ¬ t < n + 1 := by omega
        have h2 : t - n ≠ 0 := by omega
        simp only [h, this, if_false, decide_false, Bool.false_and]
        obtain ⟨u, hu⟩ : ∃ u, t - n = u + 1 := ⟨t - n - 1, by omega⟩
        rw [hu]
        cases memBit m (p + n) <;> simp [Nat.testBit_succ]

/-- A field whose bits are those of a number below `2^n` is that number. -/
theorem memField_eq_of_bits {m : List Host.Cell} {p n v : Nat} (hv : v < 2 ^ n)
    (h : ∀ t, t < n → memBit m (p + t) = v.testBit t) : memField m p n = v := by
  apply Nat.eq_of_testBit_eq
  intro t
  rw [memField_testBit]
  by_cases ht : t < n
  · simp [ht, h t ht]
  · have : v.testBit t = false := Nat.testBit_lt_two_pow (Nat.lt_of_lt_of_le hv (Nat.pow_le_pow_right (by omega) (by omega)))
    simp [ht, this]

end Sys2Proof.Machine
end

