-- ==== Sys2Proof/Laws/State.lean ====
section
/-! SUPPORT. What each update of the state does to each field, each true by unfolding once. -/

namespace Sys2Proof.Machine

@[simp] theorem respond_cfg (st : Status) (v : Value) (s : State) : (respond st v s).cfg = s.cfg := rfl
@[simp] theorem respond_mem (st : Status) (v : Value) (s : State) : (respond st v s).mem = s.mem := rfl
@[simp] theorem respond_count (st : Status) (v : Value) (s : State) : (respond st v s).count = s.count := rfl
@[simp] theorem respond_fault (st : Status) (v : Value) (s : State) : (respond st v s).fault = s.fault := rfl
@[simp] theorem respond_cause (st : Status) (v : Value) (s : State) : (respond st v s).cause = s.cause := rfl
@[simp] theorem respond_finfo (st : Status) (v : Value) (s : State) : (respond st v s).finfo = s.finfo := rfl
@[simp] theorem respond_scratch (st : Status) (v : Value) (s : State) : (respond st v s).scratch = s.scratch := rfl
@[simp] theorem respond_scratchEra (st : Status) (v : Value) (s : State) : (respond st v s).scratchEra = s.scratchEra := rfl
@[simp] theorem respond_rsp (st : Status) (v : Value) (s : State) : (respond st v s).rsp = some { status := st, value := v } := rfl
@[simp] theorem respond_inputs (st : Status) (v : Value) (s : State) : (respond st v s).inputs = s.inputs := rfl
@[simp] theorem respond_delivered (st : Status) (v : Value) (s : State) : (respond st v s).delivered = s.delivered := rfl

@[simp] theorem raiseFault_cfg (c : BitVec 4) (v : Value) (s : State) : (raiseFault c v s).cfg = s.cfg := rfl
@[simp] theorem raiseFault_mem (c : BitVec 4) (v : Value) (s : State) : (raiseFault c v s).mem = s.mem := rfl
@[simp] theorem raiseFault_count (c : BitVec 4) (v : Value) (s : State) : (raiseFault c v s).count = s.count := rfl
@[simp] theorem raiseFault_fault (c : BitVec 4) (v : Value) (s : State) : (raiseFault c v s).fault = true := rfl
@[simp] theorem raiseFault_cause (c : BitVec 4) (v : Value) (s : State) : (raiseFault c v s).cause = c := rfl
@[simp] theorem raiseFault_finfo (c : BitVec 4) (v : Value) (s : State) : (raiseFault c v s).finfo = v := rfl
@[simp] theorem raiseFault_scratch (c : BitVec 4) (v : Value) (s : State) : (raiseFault c v s).scratch = s.scratch := rfl
@[simp] theorem raiseFault_scratchEra (c : BitVec 4) (v : Value) (s : State) : (raiseFault c v s).scratchEra = s.scratchEra := rfl
@[simp] theorem raiseFault_rsp (c : BitVec 4) (v : Value) (s : State) : (raiseFault c v s).rsp = some { status := .range, value := 0 } := rfl
@[simp] theorem raiseFault_inputs (c : BitVec 4) (v : Value) (s : State) : (raiseFault c v s).inputs = s.inputs := rfl
@[simp] theorem raiseFault_delivered (c : BitVec 4) (v : Value) (s : State) : (raiseFault c v s).delivered = s.delivered := rfl

@[simp] theorem countUp_cfg (s : State) : (countUp s).cfg = s.cfg := rfl
@[simp] theorem countUp_mem (s : State) : (countUp s).mem = s.mem := rfl
@[simp] theorem countUp_count (s : State) : (countUp s).count = s.count + 1 := rfl
@[simp] theorem countUp_fault (s : State) : (countUp s).fault = s.fault := rfl
@[simp] theorem countUp_cause (s : State) : (countUp s).cause = s.cause := rfl
@[simp] theorem countUp_finfo (s : State) : (countUp s).finfo = s.finfo := rfl
@[simp] theorem countUp_scratch (s : State) : (countUp s).scratch = s.scratch := rfl
@[simp] theorem countUp_scratchEra (s : State) : (countUp s).scratchEra = s.scratchEra := rfl
@[simp] theorem countUp_rsp (s : State) : (countUp s).rsp = s.rsp := rfl
@[simp] theorem countUp_inputs (s : State) : (countUp s).inputs = s.inputs := rfl
@[simp] theorem countUp_delivered (s : State) : (countUp s).delivered = s.delivered := rfl

@[simp] theorem countDown_cfg (s : State) : (countDown s).cfg = s.cfg := rfl
@[simp] theorem countDown_mem (s : State) : (countDown s).mem = s.mem := rfl
@[simp] theorem countDown_count (s : State) : (countDown s).count = s.count - 1 := rfl
@[simp] theorem countDown_fault (s : State) : (countDown s).fault = s.fault := rfl
@[simp] theorem countDown_cause (s : State) : (countDown s).cause = s.cause := rfl
@[simp] theorem countDown_finfo (s : State) : (countDown s).finfo = s.finfo := rfl
@[simp] theorem countDown_scratch (s : State) : (countDown s).scratch = s.scratch := rfl
@[simp] theorem countDown_scratchEra (s : State) : (countDown s).scratchEra = s.scratchEra := rfl
@[simp] theorem countDown_rsp (s : State) : (countDown s).rsp = s.rsp := rfl
@[simp] theorem countDown_inputs (s : State) : (countDown s).inputs = s.inputs := rfl
@[simp] theorem countDown_delivered (s : State) : (countDown s).delivered = s.delivered := rfl

@[simp] theorem clearCount_cfg (s : State) : (clearCount s).cfg = s.cfg := rfl
@[simp] theorem clearCount_mem (s : State) : (clearCount s).mem = s.mem := rfl
@[simp] theorem clearCount_count (s : State) : (clearCount s).count = 0 := rfl
@[simp] theorem clearCount_fault (s : State) : (clearCount s).fault = s.fault := rfl
@[simp] theorem clearCount_cause (s : State) : (clearCount s).cause = s.cause := rfl
@[simp] theorem clearCount_finfo (s : State) : (clearCount s).finfo = s.finfo := rfl
@[simp] theorem clearCount_scratch (s : State) : (clearCount s).scratch = s.scratch := rfl
@[simp] theorem clearCount_scratchEra (s : State) : (clearCount s).scratchEra = s.scratchEra := rfl
@[simp] theorem clearCount_rsp (s : State) : (clearCount s).rsp = s.rsp := rfl
@[simp] theorem clearCount_inputs (s : State) : (clearCount s).inputs = s.inputs := rfl
@[simp] theorem clearCount_delivered (s : State) : (clearCount s).delivered = s.delivered := rfl

@[simp] theorem zeroAll_cfg (s : State) : (zeroAll s).cfg = s.cfg := rfl
@[simp] theorem zeroAll_mem (s : State) : (zeroAll s).mem = memZeroBelow s.mem (nbytes s.cfg) := rfl
@[simp] theorem zeroAll_count (s : State) : (zeroAll s).count = s.count := rfl
@[simp] theorem zeroAll_fault (s : State) : (zeroAll s).fault = s.fault := rfl
@[simp] theorem zeroAll_cause (s : State) : (zeroAll s).cause = s.cause := rfl
@[simp] theorem zeroAll_finfo (s : State) : (zeroAll s).finfo = s.finfo := rfl
@[simp] theorem zeroAll_scratch (s : State) : (zeroAll s).scratch = s.scratch := rfl
@[simp] theorem zeroAll_scratchEra (s : State) : (zeroAll s).scratchEra = s.scratchEra := rfl
@[simp] theorem zeroAll_rsp (s : State) : (zeroAll s).rsp = s.rsp := rfl
@[simp] theorem zeroAll_inputs (s : State) : (zeroAll s).inputs = s.inputs := rfl
@[simp] theorem zeroAll_delivered (s : State) : (zeroAll s).delivered = s.delivered := rfl

@[simp] theorem stageScratch_cfg (l : List Nat) (s : State) : (stageScratch l s).cfg = s.cfg := rfl
@[simp] theorem stageScratch_mem (l : List Nat) (s : State) : (stageScratch l s).mem = s.mem := rfl
@[simp] theorem stageScratch_count (l : List Nat) (s : State) : (stageScratch l s).count = s.count := rfl
@[simp] theorem stageScratch_fault (l : List Nat) (s : State) : (stageScratch l s).fault = s.fault := rfl
@[simp] theorem stageScratch_cause (l : List Nat) (s : State) : (stageScratch l s).cause = s.cause := rfl
@[simp] theorem stageScratch_finfo (l : List Nat) (s : State) : (stageScratch l s).finfo = s.finfo := rfl
@[simp] theorem stageScratch_scratch (l : List Nat) (s : State) : (stageScratch l s).scratch = l.map (BitVec.ofNat 64) := rfl
@[simp] theorem stageScratch_scratchEra (l : List Nat) (s : State) : (stageScratch l s).scratchEra = s.scratchEra := rfl
@[simp] theorem stageScratch_rsp (l : List Nat) (s : State) : (stageScratch l s).rsp = s.rsp := rfl
@[simp] theorem stageScratch_inputs (l : List Nat) (s : State) : (stageScratch l s).inputs = s.inputs := rfl
@[simp] theorem stageScratch_delivered (l : List Nat) (s : State) : (stageScratch l s).delivered = s.delivered := rfl

@[simp] theorem releaseScratch_cfg (s : State) : (releaseScratch s).cfg = s.cfg := rfl
@[simp] theorem releaseScratch_mem (s : State) : (releaseScratch s).mem = s.mem := rfl
@[simp] theorem releaseScratch_count (s : State) : (releaseScratch s).count = s.count := rfl
@[simp] theorem releaseScratch_fault (s : State) : (releaseScratch s).fault = s.fault := rfl
@[simp] theorem releaseScratch_cause (s : State) : (releaseScratch s).cause = s.cause := rfl
@[simp] theorem releaseScratch_finfo (s : State) : (releaseScratch s).finfo = s.finfo := rfl
@[simp] theorem releaseScratch_scratch (s : State) : (releaseScratch s).scratch = (List.range s.cfg.k.toNat).map (Config.scratchResidue s.scratchEra) := rfl
@[simp] theorem releaseScratch_scratchEra (s : State) : (releaseScratch s).scratchEra = s.scratchEra + 1 := rfl
@[simp] theorem releaseScratch_rsp (s : State) : (releaseScratch s).rsp = s.rsp := rfl
@[simp] theorem releaseScratch_inputs (s : State) : (releaseScratch s).inputs = s.inputs := rfl
@[simp] theorem releaseScratch_delivered (s : State) : (releaseScratch s).delivered = s.delivered := rfl

@[simp] theorem hardReset_cfg (s : State) : (hardReset s).cfg = s.cfg := rfl
@[simp] theorem hardReset_mem (s : State) : (hardReset s).mem = [] := rfl
@[simp] theorem hardReset_count (s : State) : (hardReset s).count = 0 := rfl
@[simp] theorem hardReset_fault (s : State) : (hardReset s).fault = false := rfl
@[simp] theorem hardReset_cause (s : State) : (hardReset s).cause = 0 := rfl
@[simp] theorem hardReset_finfo (s : State) : (hardReset s).finfo = 0 := rfl
@[simp] theorem hardReset_scratch (s : State) : (hardReset s).scratch = (List.range s.cfg.k.toNat).map (Config.scratchResidue s.scratchEra) := rfl
@[simp] theorem hardReset_scratchEra (s : State) : (hardReset s).scratchEra = s.scratchEra + 1 := rfl
@[simp] theorem hardReset_rsp (s : State) : (hardReset s).rsp = none := rfl
@[simp] theorem hardReset_inputs (s : State) : (hardReset s).inputs = s.inputs := rfl
@[simp] theorem hardReset_delivered (s : State) : (hardReset s).delivered = s.delivered := rfl

@[simp] theorem takeInput_cfg (s : State) : (takeInput s).cfg = s.cfg := rfl
@[simp] theorem takeInput_mem (s : State) : (takeInput s).mem = s.mem := rfl
@[simp] theorem takeInput_count (s : State) : (takeInput s).count = s.count := rfl
@[simp] theorem takeInput_fault (s : State) : (takeInput s).fault = s.fault := rfl
@[simp] theorem takeInput_cause (s : State) : (takeInput s).cause = s.cause := rfl
@[simp] theorem takeInput_finfo (s : State) : (takeInput s).finfo = s.finfo := rfl
@[simp] theorem takeInput_scratch (s : State) : (takeInput s).scratch = s.scratch := rfl
@[simp] theorem takeInput_scratchEra (s : State) : (takeInput s).scratchEra = s.scratchEra := rfl
@[simp] theorem takeInput_rsp (s : State) : (takeInput s).rsp = s.rsp := rfl
@[simp] theorem takeInput_inputs (s : State) : (takeInput s).inputs = s.inputs.tail := rfl
@[simp] theorem takeInput_delivered (s : State) : (takeInput s).delivered = s.delivered := rfl

@[simp] theorem offerWord_cfg (w : CmdWord) (s : State) : (offerWord w s).cfg = s.cfg := rfl
@[simp] theorem offerWord_mem (w : CmdWord) (s : State) : (offerWord w s).mem = s.mem := rfl
@[simp] theorem offerWord_count (w : CmdWord) (s : State) : (offerWord w s).count = s.count := rfl
@[simp] theorem offerWord_fault (w : CmdWord) (s : State) : (offerWord w s).fault = s.fault := rfl
@[simp] theorem offerWord_cause (w : CmdWord) (s : State) : (offerWord w s).cause = s.cause := rfl
@[simp] theorem offerWord_finfo (w : CmdWord) (s : State) : (offerWord w s).finfo = s.finfo := rfl
@[simp] theorem offerWord_scratch (w : CmdWord) (s : State) : (offerWord w s).scratch = s.scratch := rfl
@[simp] theorem offerWord_scratchEra (w : CmdWord) (s : State) : (offerWord w s).scratchEra = s.scratchEra := rfl
@[simp] theorem offerWord_rsp (w : CmdWord) (s : State) : (offerWord w s).rsp = s.rsp := rfl
@[simp] theorem offerWord_inputs (w : CmdWord) (s : State) : (offerWord w s).inputs = PortIn.command w :: s.inputs := rfl
@[simp] theorem offerWord_delivered (w : CmdWord) (s : State) : (offerWord w s).delivered = s.delivered := rfl

@[simp] theorem resetWith_cfg (c : Config) : (State.resetWith c).cfg = c := rfl
@[simp] theorem resetWith_mem (c : Config) : (State.resetWith c).mem = [] := rfl
@[simp] theorem resetWith_count (c : Config) : (State.resetWith c).count = 0 := rfl
@[simp] theorem resetWith_fault (c : Config) : (State.resetWith c).fault = false := rfl
@[simp] theorem resetWith_cause (c : Config) : (State.resetWith c).cause = 0 := rfl
@[simp] theorem resetWith_finfo (c : Config) : (State.resetWith c).finfo = 0 := rfl
@[simp] theorem resetWith_scratch (c : Config) : (State.resetWith c).scratch = List.replicate c.k.toNat 0 := rfl
@[simp] theorem resetWith_scratchEra (c : Config) : (State.resetWith c).scratchEra = 0 := rfl
@[simp] theorem resetWith_rsp (c : Config) : (State.resetWith c).rsp = none := rfl
@[simp] theorem resetWith_inputs (c : Config) : (State.resetWith c).inputs = [] := rfl
@[simp] theorem resetWith_delivered (c : Config) : (State.resetWith c).delivered = [] := rfl

@[simp] theorem deliver_cfg (ready : Bool) (s : State) : (deliver ready s).cfg = s.cfg := by
  unfold deliver; split <;> rfl
@[simp] theorem deliver_mem (ready : Bool) (s : State) : (deliver ready s).mem = s.mem := by
  unfold deliver; split <;> rfl
@[simp] theorem deliver_count (ready : Bool) (s : State) : (deliver ready s).count = s.count := by
  unfold deliver; split <;> rfl
@[simp] theorem deliver_fault (ready : Bool) (s : State) : (deliver ready s).fault = s.fault := by
  unfold deliver; split <;> rfl
@[simp] theorem deliver_cause (ready : Bool) (s : State) : (deliver ready s).cause = s.cause := by
  unfold deliver; split <;> rfl
@[simp] theorem deliver_finfo (ready : Bool) (s : State) : (deliver ready s).finfo = s.finfo := by
  unfold deliver; split <;> rfl
@[simp] theorem deliver_scratch (ready : Bool) (s : State) : (deliver ready s).scratch = s.scratch := by
  unfold deliver; split <;> rfl
@[simp] theorem deliver_scratchEra (ready : Bool) (s : State) : (deliver ready s).scratchEra = s.scratchEra := by
  unfold deliver; split <;> rfl
@[simp] theorem deliver_inputs (ready : Bool) (s : State) : (deliver ready s).inputs = s.inputs := by
  unfold deliver; split <;> rfl

/-- Without `rsp_ready`, nothing is delivered. -/
@[simp] theorem deliver_false (s : State) : deliver false s = s := rfl

/-- With no response pending, nothing is delivered. -/
theorem deliver_of_rsp_none {s : State} (ready : Bool) (h : s.rsp = none) : deliver ready s = s := by
  unfold deliver; rw [h]; split <;> simp_all

/-- A pending response and `rsp_ready`: the response moves to the delivered ones. -/
theorem deliver_of_rsp_some {s : State} {r : Response} (h : s.rsp = some r) :
    deliver true s = { s with rsp := none, delivered := s.delivered ++ [r] } := by
  unfold deliver; rw [h]

@[simp] theorem readied_cfg (s : State) : (readied s).cfg = s.cfg := by simp [readied]
@[simp] theorem readied_mem (s : State) : (readied s).mem = s.mem := by simp [readied]
@[simp] theorem readied_count (s : State) : (readied s).count = s.count := by simp [readied]
@[simp] theorem readied_fault (s : State) : (readied s).fault = s.fault := by simp [readied]
@[simp] theorem readied_cause (s : State) : (readied s).cause = s.cause := by simp [readied]
@[simp] theorem readied_finfo (s : State) : (readied s).finfo = s.finfo := by simp [readied]
@[simp] theorem readied_scratch (s : State) : (readied s).scratch = s.scratch := by simp [readied]
@[simp] theorem readied_scratchEra (s : State) : (readied s).scratchEra = s.scratchEra := by simp [readied]
@[simp] theorem readied_inputs (s : State) : (readied s).inputs = s.inputs.tail := by simp [readied]

end Sys2Proof.Machine
end

