-- ==== Sys2Proof/Laws/Ops.lean ====
section
/-! SUPPORT. One law for each shared operation, saying all it can do; cited instead of unfolding the operation. -/

namespace Sys2Proof.Machine

/-! ### Storage bits -/

/-- Setting a bit of a byte: that bit is the new one, the others are as before. -/
theorem setBit_getLsbD (y : Byte) (n : Nat) (x : Bool) (i : Nat) (hn : n < 8) (hi : i < 8) :
    (setBit y n x).getLsbD i = if i = n then x else y.getLsbD i := by
  unfold setBit
  cases x
  · by_cases h : i = n
    · subst h; simp [hi]
    · simp only [Bool.false_eq_true, if_false, BitVec.getLsbD_and, BitVec.getLsbD_not, BitVec.getLsbD_shiftLeft, h]
      by_cases h2 : i < n
      · simp [h2, hi]
      · have : i - n ≠ 0 := by omega
        simp [h2, hi, this]
  · by_cases h : i = n
    · subst h; simp [hi]
    · simp only [if_true, BitVec.getLsbD_or, BitVec.getLsbD_shiftLeft, h, if_false]
      by_cases h2 : i < n
      · simp [h2]
      · have : i - n ≠ 0 := by omega
        simp [h2, this]

/-- Writing one storage bit through its byte changes that bit only. -/
theorem memBit_memPut_setBit (m : List Host.Cell) (p : Nat) (x : Bool) (q : Nat) :
    memBit (memPut m (p / 8) (setBit (memGet m (p / 8)) (p % 8) x)) q = if q = p then x else memBit m q := by
  unfold memBit
  rw [memGet_memPut]
  by_cases hb : q / 8 = p / 8
  · rw [if_pos hb, setBit_getLsbD _ _ _ _ (Nat.mod_lt _ (by omega)) (Nat.mod_lt _ (by omega)), hb]
    by_cases h : q = p
    · subst h; simp
    · have : q % 8 ≠ p % 8 := fun e => h (by omega)
      simp [h, this]
  · have : q ≠ p := fun e => hb (by rw [e])
    simp [hb, this]

/-- `MemRead` inside the storage. -/
theorem memRead_ok {s : State} {a : Nat} (h : a < nbytes s.cfg) : memRead s a = .ok (memGet s.mem a) := if_pos h

/-- `MemWrite` inside the storage. -/
theorem memWrite_ok {s : State} {a : Nat} (v : Byte) (h : a < nbytes s.cfg) :
    memWrite s a v = .ok { s with mem := memPut s.mem a v } := if_pos h

/-- Reading bits inside the storage gives the field they make. -/
theorem readBits_ok {s : State} {p n : Nat} (h : ∀ t, t < n → (p + t) / 8 < nbytes s.cfg) :
    readBits s p n = .ok (memField s.mem p n) := by
  induction n with
  | zero => rfl
  | succ n ih =>
    simp only [readBits, ih (fun t ht => h t (by omega)), memRead_ok (h n (by omega))]
    rfl

/-- The memory after writing the `n` lowest bits of `v` from storage bit `p` up. -/
def putBits (m : List Host.Cell) (p v : Nat) : Nat → List Host.Cell
  | 0 => m
  | n + 1 =>
    memPut (putBits m p v n) ((p + n) / 8)
      (setBit (memGet (putBits m p v n) ((p + n) / 8)) ((p + n) % 8) (v.testBit n))

/-- Writing bits inside the storage changes the memory only. -/
theorem writeBits_ok {s : State} {p v n : Nat} (h : ∀ t, t < n → (p + t) / 8 < nbytes s.cfg) :
    writeBits s p v n = .ok { s with mem := putBits s.mem p v n } := by
  induction n with
  | zero => rfl
  | succ n ih =>
    have hn := h n (by omega)
    simp only [writeBits, ih (fun t ht => h t (by omega))]
    rw [memRead_ok (by exact hn)]
    simp only
    rw [memWrite_ok _ (by exact hn)]
    rfl

/-- The storage bits after writing bits. -/
theorem memBit_putBits (m : List Host.Cell) (p v n q : Nat) :
    memBit (putBits m p v n) q = if p ≤ q ∧ q < p + n then v.testBit (q - p) else memBit m q := by
  induction n with
  | zero => rw [if_neg (by omega)]; rfl
  | succ n ih =>
    unfold putBits
    rw [memBit_memPut_setBit, ih]
    by_cases h : q = p + n
    · subst h; simp
    · by_cases h2 : p ≤ q ∧ q < p + n
      · rw [if_neg h, if_pos h2, if_pos (by omega)]
      · rw [if_neg h, if_neg h2, if_neg (by omega)]

/-- Writing bits keeps the canonical form. -/
theorem wf_putBits {m : List Host.Cell} (hm : Memory.wf m) (p v n : Nat) : Memory.wf (putBits m p v n) := by
  induction n with
  | zero => exact hm
  | succ n ih => exact wf_memPut ih _ _

/-- Writing bits below storage byte `u` lists no address at or above it. -/
theorem putBits_inside {m : List Host.Cell} {p v n u : Nat} (hm : ∀ c ∈ m, c.1 < u)
    (h : ∀ t, t < n → (p + t) / 8 < u) : ∀ c ∈ putBits m p v n, c.1 < u := by
  induction n with
  | zero => exact hm
  | succ n ih =>
    intro c hc
    rcases mem_memPut hc with rfl | hc
    · exact h n (by omega)
    · exact ih (fun t ht => h t (by omega)) c hc

/-! ### Buckets -/

/-- The bits of a bucket below `m` are storage bits below `m * b`. -/
theorem bucket_bit_lt {m b j t : Nat} (hj : j < m) (ht : t < b) : j * b + t < m * b := by
  have : (j + 1) * b ≤ m * b := Nat.mul_le_mul_right b hj
  rw [Nat.add_mul] at this
  omega

/-- The bits of a bucket below `m` lie in the storage. -/
theorem bucket_byte_lt {c : Config} {j t : Nat} (hj : j < c.m.toNat) (ht : t < c.b.toNat) :
    (j * c.b.toNat + t) / 8 < nbytes c := by
  have := bucket_bit_lt hj ht
  unfold nbytes
  omega

/-- The bits of two buckets are apart. -/
theorem bucket_bits_apart {b j j' t t' : Nat} (h : j ≠ j') (ht : t < b) (ht' : t' < b) :
    j * b + t ≠ j' * b + t' := by
  intro e
  rcases Nat.lt_or_gt_of_ne h with h | h
  · have := bucket_bit_lt (b := b) h ht; omega
  · have := bucket_bit_lt (b := b) h ht'; omega

/-- `Bkt(j)` below `m` is the view of the storage. -/
theorem readBucket_ok {s : State} {j : Nat} (h : j < s.cfg.m.toNat) : readBucket s j = .ok (s.bkt j) := by
  unfold readBucket
  rw [if_pos h, readBits_ok (fun t ht => bucket_byte_lt h ht)]
  rfl

/-- `Bkt(j) <- v` below `m` changes the memory only. -/
theorem writeBucket_ok {s : State} {j : Nat} (v : Nat) (h : j < s.cfg.m.toNat) :
    writeBucket s j v = .ok { s with mem := putBits s.mem (j * s.cfg.b.toNat) v s.cfg.b.toNat } := by
  unfold writeBucket
  rw [if_pos h, writeBits_ok (fun t ht => bucket_byte_lt h ht)]

/-- Neither answers anything at or above `m`. -/
theorem readBucket_hole {s : State} {j : Nat} (h : ¬ j < s.cfg.m.toNat) : readBucket s j = .error (.bucketHole j) := if_neg h

theorem writeBucket_hole {s : State} {j : Nat} (v : Nat) (h : ¬ j < s.cfg.m.toNat) :
    writeBucket s j v = .error (.bucketHole j) := if_neg h

/-- The clamped sum is in `[0, MAX]`. -/
theorem bumped_le (c : Config) (v : Nat) (d : Int) : bumped c v d ≤ maxVal c := by
  unfold bumped clamp; omega

/-- `MAX + 1` is `2^b`. -/
theorem maxVal_lt (c : Config) : maxVal c < 2 ^ c.b.toNat := by
  have := Nat.two_pow_pos c.b.toNat
  unfold maxVal; omega

/-- One saturating increment. -/
theorem bumped_one (c : Config) (v : Nat) : bumped c v 1 = min (v + 1) (maxVal c) := by
  unfold bumped clamp; omega

/-- One clamped decrement, of a bucket value. -/
theorem bumped_neg_one (c : Config) {v : Nat} (h : v ≤ maxVal c) : bumped c v (-1) = v - 1 := by
  unfold bumped clamp; omega

/-- The memory after one round on bucket `j`. -/
def bumpMem (delta : Int) (j : Nat) (s : State) : List Host.Cell :=
  putBits s.mem (j * s.cfg.b.toNat) (bumped s.cfg (s.bkt j) delta) s.cfg.b.toNat

/-- One round on a bucket below `m` changes the memory only. -/
theorem bump_ok {s : State} {j : Nat} (delta : Int) (h : j < s.cfg.m.toNat) :
    bump delta j s = .ok { s with mem := bumpMem delta j s } := by
  unfold bump
  rw [readBucket_ok h]
  exact writeBucket_ok _ h

/-- The memory after the rounds of a list. -/
def bumpAllMem (delta : Int) : List Nat → State → List Host.Cell
  | [], s => s.mem
  | j :: js, s => bumpAllMem delta js { s with mem := bumpMem delta j s }

/-- The rounds of a list of buckets below `m` change the memory only. -/
theorem bumpAll_ok (delta : Int) (l : List Nat) (s : State) (h : ∀ j ∈ l, j < s.cfg.m.toNat) :
    bumpAll delta l s = .ok { s with mem := bumpAllMem delta l s } := by
  induction l generalizing s with
  | nil => rfl
  | cons j js ih =>
    unfold bumpAll
    rw [bump_ok delta (h j (by simp))]
    exact ih _ (fun i hi => h i (by simp [hi]))

/-- The rounds keep the canonical form. -/
theorem wf_bumpAllMem (delta : Int) (l : List Nat) (s : State) (h : Memory.wf s.mem) : Memory.wf (bumpAllMem delta l s) := by
  induction l generalizing s with
  | nil => exact h
  | cons j js ih => exact ih _ (wf_putBits h _ _ _)

/-- `Member(L)` on a list of buckets below `m`. -/
theorem member_ok (s : State) (l : List Nat) (h : ∀ j ∈ l, j < s.cfg.m.toNat) :
    member s l = .ok (l.all (fun j => s.bkt j != 0)) := by
  induction l with
  | nil => rfl
  | cons j js ih =>
    unfold member
    rw [readBucket_ok (h j (by simp)), ih (fun i hi => h i (by simp [hi]))]
    rfl

/-- Every derived index is below `m` (41_filter_membership.md R91). -/
theorem indexAt_lt {c : Config} (h : 1 ≤ c.m.toNat) (dig : Value) (i : Nat) : indexAt c dig i < c.m.toNat :=
  Nat.mod_lt _ h

theorem indexList_lt {c : Config} (h : 1 ≤ c.m.toNat) (dig : Value) : ∀ j ∈ indexList c dig, j < c.m.toNat := by
  intro j hj
  obtain ⟨i, -, rfl⟩ := List.mem_map.mp hj
  exact indexAt_lt h dig i

theorem indexList_length (c : Config) (dig : Value) : (indexList c dig).length = c.k.toNat := by simp [indexList]

/-- The staged indices read back as they were staged, being below `2^64`. -/
theorem stagedIndices_stage (s : State) {l : List Nat} (h : ∀ j ∈ l, j < 2 ^ 64) :
    stagedIndices (stageScratch l s) = l := by
  unfold stagedIndices
  simp only [stageScratch_scratch, List.map_map]
  conv_rhs => rw [← List.map_id l]
  exact List.map_congr_left (fun j hj => by simpa using Nat.mod_eq_of_lt (h j hj))

/-- The staged index list of a digest reads back as it is (41_filter_membership.md R110). -/
theorem stagedIndices_indexList (s : State) (dig : Value) (h : 1 ≤ s.cfg.m.toNat) :
    stagedIndices (stageScratch (indexList s.cfg dig) s) = indexList s.cfg dig :=
  stagedIndices_stage s (fun j hj => Nat.lt_trans (indexList_lt h dig j hj) s.cfg.m.isLt)

/-! ### Status codes -/

@[simp] theorem statusOfCode_statusCode (st : Status) : statusOfCode (statusCode st) = some st := by cases st <;> decide

/-- A code that names a status is its code. -/
theorem statusCode_of_statusOfCode {code : BitVec 4} {st : Status} (h : statusOfCode code = some st) :
    statusCode st = code := by simpa using List.find?_some h

/-! ### Control -/

@[simp] theorem orFault_ok {α : Type} (x : α) (k : α → Host.Outcome State Fault Refusal) : orFault (.ok x) k = k x := rfl

@[simp] theorem orFault_error {α : Type} (f : Fault) (k : α → Host.Outcome State Fault Refusal) :
    orFault (.error f) k = .fault f := rfl

theorem whenLegal_of_legal {s : State} (b : Host.Outcome State Fault Refusal) (h : s.cfg.legal) : whenLegal s b = b := if_pos h

theorem whenLegal_of_illegal {s : State} (b : Host.Outcome State Fault Refusal) (h : ¬ s.cfg.legal) :
    whenLegal s b = .refused .invalidConfiguration := if_neg h

theorem whenReady_of_ready {s : State} (b : Host.Outcome State Fault Refusal) (h : s.cfg.legal) (hf : s.fault = false) :
    whenReady s b = b := by
  unfold whenReady; rw [whenLegal_of_legal _ h, hf]; rfl

theorem whenReady_of_faulted {s : State} (b : Host.Outcome State Fault Refusal) (h : s.cfg.legal) (hf : s.fault = true) :
    whenReady s b = .next (respond .faulted 0 s) := by
  unfold whenReady; rw [whenLegal_of_legal _ h, hf]; rfl

theorem whenReady_of_illegal {s : State} (b : Host.Outcome State Fault Refusal) (h : ¬ s.cfg.legal) :
    whenReady s b = .refused .invalidConfiguration := whenLegal_of_illegal _ h

theorem checkIndex_inside {s : State} {idx : Value} (b : Host.Outcome State Fault Refusal) (h : idx.toNat < s.cfg.m.toNat) :
    checkIndex idx s b = b := if_pos h

theorem checkIndex_outside {s : State} {idx : Value} (b : Host.Outcome State Fault Refusal) (h : s.cfg.m.toNat ≤ idx.toNat) :
    checkIndex idx s b = .next (raiseFault causeRange idx s) := if_neg (Nat.not_lt.mpr h)

end Sys2Proof.Machine
end

