-- ==== Sys2Proof/Laws/Buckets.lean ====
section
/-! SUPPORT. What the rounds of ADD, TESTADD, TESTREM and BINC do to buckets, storage bits and storage bytes. -/

namespace Sys2Proof.Machine

/-- Two memories with the same bits of a byte have the same byte. -/
theorem memGet_eq_of_bits {m m' : List Host.Cell} {a : Nat} (h : ∀ t, t < 8 → memBit m (8 * a + t) = memBit m' (8 * a + t)) :
    memGet m a = memGet m' a := by
  apply BitVec.eq_of_getLsbD_eq
  intro i hi
  have := h i hi
  unfold memBit at this
  rw [show (8 * a + i) / 8 = a by omega, show (8 * a + i) % 8 = i by omega] at this
  exact this

/-- The buckets after writing a value's bits where bucket `j` lies: that bucket holds it, the others are as before. -/
theorem bkt_putBits (s : State) (j v j' : Nat) (hv : v ≤ maxVal s.cfg) :
    State.bkt { s with mem := putBits s.mem (j * s.cfg.b.toNat) v s.cfg.b.toNat } j' = if j' = j then v else s.bkt j' := by
  show memField (putBits s.mem (j * s.cfg.b.toNat) v s.cfg.b.toNat) (j' * s.cfg.b.toNat) s.cfg.b.toNat = _
  split
  · next h =>
    subst h
    apply memField_eq_of_bits (Nat.lt_of_le_of_lt hv (maxVal_lt s.cfg))
    intro t ht
    rw [memBit_putBits, if_pos (by omega)]
    congr 1
    omega
  · next h =>
    apply memField_congr
    intro t ht
    rw [memBit_putBits, if_neg]
    intro ⟨h1, h2⟩
    have := bucket_bits_apart (b := s.cfg.b.toNat) (t := t) (t' := j' * s.cfg.b.toNat + t - j * s.cfg.b.toNat) h ht (by omega)
    omega

/-- The buckets after one round on bucket `j`. -/
theorem bkt_bumpMem (d : Int) (j j' : Nat) (s : State) :
    State.bkt { s with mem := bumpMem d j s } j' = if j' = j then bumped s.cfg (s.bkt j) d else s.bkt j' :=
  bkt_putBits s j _ j' (bumped_le _ _ _)

/-- The rounds depend on the configuration and the storage only. -/
theorem bumpAllMem_congr (d : Int) (l : List Nat) (s t : State) (h1 : s.cfg = t.cfg) (h2 : s.mem = t.mem) :
    bumpAllMem d l s = bumpAllMem d l t := by
  induction l generalizing s t with
  | nil => exact h2
  | cons j js ih =>
    apply ih { s with mem := bumpMem d j s } { t with mem := bumpMem d j t } h1
    simp only
    unfold bumpMem State.bkt
    rw [h1, h2]

/-- The buckets after the increments of a list: one per occurrence, saturating (41_filter_membership.md R100). -/
theorem bkt_bumpAllMem_one (l : List Nat) (s : State) (j : Nat) :
    State.bkt { s with mem := bumpAllMem 1 l s } j =
      if j ∈ l then min (s.bkt j + l.count j) (maxVal s.cfg) else s.bkt j := by
  induction l generalizing s with
  | nil => simp; rfl
  | cons i is ih =>
    have h := ih { s with mem := bumpMem 1 i s }
    rw [bkt_bumpMem, bumped_one] at h
    refine h.trans ?_
    by_cases e : j = i
    · subst e
      simp only [if_true, List.mem_cons, true_or, List.count_cons_self]
      split
      · omega
      · next h => rw [List.count_eq_zero_of_not_mem h]
    · simp [e, List.count_cons_of_ne (Ne.symm e)]

/-- The buckets after the decrements of a list: one per occurrence, clamped at 0 (41_filter_membership.md R100). -/
theorem bkt_bumpAllMem_neg_one (l : List Nat) (s : State) (j : Nat) :
    State.bkt { s with mem := bumpAllMem (-1) l s } j = s.bkt j - l.count j := by
  induction l generalizing s with
  | nil => simp; rfl
  | cons i is ih =>
    have h := ih { s with mem := bumpMem (-1) i s }
    have hle : s.bkt i ≤ maxVal s.cfg := by
      have := memField_lt s.mem (i * s.cfg.b.toNat) s.cfg.b.toNat
      unfold State.bkt maxVal
      omega
    rw [bkt_bumpMem, bumped_neg_one _ hle] at h
    refine h.trans ?_
    by_cases e : j = i
    · subst e
      simp only [if_true, List.count_cons_self]
      omega
    · simp [e, List.count_cons_of_ne (Ne.symm e)]

/-- The rounds change bits of the listed buckets only. -/
theorem memBit_bumpAllMem (d : Int) (l : List Nat) (s : State) (p : Nat) (h : ¬ Safety.bitOf s.cfg l p) :
    memBit (bumpAllMem d l s) p = memBit s.mem p := by
  induction l generalizing s with
  | nil => rfl
  | cons i is ih =>
    have h2 := ih { s with mem := bumpMem d i s } (fun ⟨j, hj, h2⟩ => h ⟨j, by simp [hj], h2⟩)
    refine h2.trans ?_
    show memBit (putBits _ _ _ _) p = _
    rw [memBit_putBits, if_neg (fun h2 => h ⟨i, by simp, h2⟩)]

/-- The rounds' storage frame. -/
theorem storesOnly_bumpAllMem (d : Int) (l : List Nat) (s t : State) (hc : t.cfg = s.cfg) (hm : t.mem = bumpAllMem d l s) :
    Safety.StoresOnly s t l := by
  have hbits : ∀ p, ¬ Safety.bitOf s.cfg l p → memBit t.mem p = memBit s.mem p :=
    fun p hp => hm ▸ memBit_bumpAllMem d l s p hp
  refine ⟨fun j hj => ?_, hbits, fun a ha => memGet_eq_of_bits fun n hn => hbits _ ?_⟩
  · unfold State.bkt
    rw [hc]
    refine memField_congr fun n hn => hbits _ ?_
    rintro ⟨i, hi, h1, h2⟩
    have := bucket_bits_apart (b := s.cfg.b.toNat) (t := n) (t' := j * s.cfg.b.toNat + n - i * s.cfg.b.toNat)
      (fun e : j = i => hj (e ▸ hi)) hn (by omega)
    omega
  · rintro ⟨i, hi, h1, h2⟩
    exact ha ⟨i, hi, 8 * a + n - i * s.cfg.b.toNat, by omega, by omega⟩

/-- The rounds touch no padding bit (20_memory.md R42). -/
theorem padding_bumpAllMem (d : Int) (l : List Nat) (s : State) (hl : ∀ j ∈ l, j < s.cfg.m.toNat) (p : Nat)
    (hp : s.cfg.m.toNat * s.cfg.b.toNat ≤ p) : memBit (bumpAllMem d l s) p = memBit s.mem p := by
  apply memBit_bumpAllMem
  rintro ⟨j, hj, h1, h2⟩
  have := bucket_bit_lt (b := s.cfg.b.toNat) (t := p - j * s.cfg.b.toNat) (hl j hj) (by omega)
  omega

/-- The rounds list no byte past the storage. -/
theorem inside_bumpAllMem (d : Int) (l : List Nat) (s : State) (hl : ∀ j ∈ l, j < s.cfg.m.toNat)
    (h : ∀ c ∈ s.mem, c.1 < nbytes s.cfg) : ∀ c ∈ bumpAllMem d l s, c.1 < nbytes s.cfg := by
  induction l generalizing s with
  | nil => exact h
  | cons j js ih =>
    exact ih { s with mem := bumpMem d j s } (fun i hi => hl i (by simp [hi]))
      (putBits_inside h (fun t ht => bucket_byte_lt (hl j (by simp)) ht))

/-- Zeroed storage bits. -/
theorem memBit_zeroAll (s : State) (p : Nat) (h : p < 8 * nbytes s.cfg) : memBit (zeroAll s).mem p = false := by
  unfold memBit
  rw [zeroAll_mem, memGet_memZeroBelow, if_pos (by omega)]
  simp

/-- Zeroing twice is zeroing once. -/
theorem zeroAll_zeroAll (s : State) : zeroAll (zeroAll s) = zeroAll s := by
  have h : memZeroBelow (memZeroBelow s.mem (nbytes s.cfg)) (nbytes s.cfg) = memZeroBelow s.mem (nbytes s.cfg) := by
    unfold memZeroBelow
    rw [List.filter_filter]
    congr 1
    funext c
    simp
  unfold zeroAll
  simp only [h]

end Sys2Proof.Machine
end

