-- ==== Sys2Proof/Laws/PerInstr.lean ====
section
/-! SUPPORT. Facts about each command as syntax, one lemma per constructor of `Instr`. -/

namespace Sys2Proof

/-- A bit of an encoding, by the field it lies in (30_encoding.md R56). -/
theorem fields_getLsbD (hi : Value) (mid : BitVec 32) (op : BitVec 8) (n : Nat) :
    BitVec.getLsbD (w := 128) (hi ++ mid ++ (0#24) ++ op) n =
      if n < 8 then op.getLsbD n else if n < 32 then false
      else if n < 64 then mid.getLsbD (n - 32) else hi.getLsbD (n - 64) := by
  have h : BitVec.getLsbD (w := 128) (hi ++ mid ++ (0#24) ++ op) n =
      BitVec.getLsbD (w := 64 + 32 + 24 + 8) (hi ++ mid ++ (0#24) ++ op) n := rfl
  rw [h, BitVec.getLsbD_append]
  by_cases h8 : n < 8
  · simp [h8]
  · rw [if_neg h8, if_neg h8, BitVec.getLsbD_append]
    by_cases h32 : n < 32
    · rw [if_pos h32, if_pos (by omega)]; simp
    · rw [if_neg h32, if_neg (by omega), BitVec.getLsbD_append]
      by_cases h64 : n < 64
      · rw [if_pos h64, if_pos (by omega), Nat.sub_sub]
      · rw [if_neg h64, if_neg (by omega), Nat.sub_sub, Nat.sub_sub]

/-- The lowest byte of an encoding is the opcode byte. -/
theorem opOf_fields (hi : Value) (mid : BitVec 32) (op : BitVec 8) : opOf (hi ++ mid ++ (0#24) ++ op) = op := by
  apply BitVec.eq_of_getLsbD_eq
  intro i h
  rw [opOf, BitVec.getLsbD_extractLsb', Nat.zero_add, fields_getLsbD]
  simp [h]

namespace Laws.OpcodeByte

/-- `cmd[7:0]` of a command's encoding is its row's `op` (30_encoding.md R55, R61). -/
def Statement (i : Instr) : Prop := opOf (encode i) = i.opcode.code

theorem test (dig : Value) : Statement (.test dig) := opOf_fields _ _ _
theorem add (dig : Value) : Statement (.add dig) := opOf_fields _ _ _
theorem testadd (dig : Value) : Statement (.testadd dig) := opOf_fields _ _ _
theorem testrem (dig : Value) : Statement (.testrem dig) := opOf_fields _ _ _
theorem reset : Statement .reset := opOf_fields _ _ _
theorem cap : Statement .cap := opOf_fields _ _ _
theorem krd : Statement .krd := opOf_fields _ _ _
theorem cnt : Statement .cnt := opOf_fields _ _ _
theorem bget (idx : Value) : Statement (.bget idx) := opOf_fields _ _ _
theorem binc (idx : Value) (delta : BitVec 32) : Statement (.binc idx delta) := opOf_fields _ _ _
theorem breset : Statement .breset := opOf_fields _ _ _
theorem rdstat : Statement .rdstat := opOf_fields _ _ _
theorem rdfinfo : Statement .rdfinfo := opOf_fields _ _ _

end Laws.OpcodeByte

end Sys2Proof
end

