-- ==== Sys2Proof/Laws/Decode.lean ====
section
/-! SUPPORT. The laws of the opcode map, of a word's fields and of its bytes. -/

namespace Sys2Proof

/-- Every row is found by its own `op`: no two rows share one (30_encoding.md R61). -/
theorem ofByte_code (o : Opcode) : Opcode.ofByte o.code = some o := by cases o <;> decide

/-- A row found by an `op` has that `op`. -/
theorem code_of_ofByte {op : BitVec 8} {o : Opcode} (h : Opcode.ofByte op = some o) : o.code = op := by
  simpa using List.find?_some h

/-- No two rows of the opcode map match one word: they differ in a bit both fix (30_encoding.md R61). -/
theorem opcode_rows_disjoint :
    Opcode.all.Pairwise (fun a b => (a.format.mask &&& b.format.mask) &&& (a.matchBits ^^^ b.matchBits) ≠ 0) := by decide

/-- Bits 127:64 of an encoding. -/
theorem operand64_fields (hi : Value) (mid : BitVec 32) (op : BitVec 8) : operand64 (hi ++ mid ++ (0#24) ++ op) = hi := by
  apply BitVec.eq_of_getLsbD_eq
  intro i h
  rw [operand64, BitVec.getLsbD_extractLsb', fields_getLsbD, if_neg (by omega), if_neg (by omega), if_neg (by omega)]
  simp [h]

/-- Bits 63:32 of an encoding. -/
theorem operandDelta_fields (hi : Value) (mid : BitVec 32) (op : BitVec 8) :
    operandDelta (hi ++ mid ++ (0#24) ++ op) = mid := by
  apply BitVec.eq_of_getLsbD_eq
  intro i h
  rw [operandDelta, BitVec.getLsbD_extractLsb', fields_getLsbD, if_neg (by omega), if_neg (by omega), if_pos (by omega)]
  simp [h]

/-! ### Bytes of a transport (20_memory.md R45) -/

@[simp] theorem bytesOfNat_length (n v : Nat) : (bytesOfNat n v).length = n := by
  induction n generalizing v with
  | zero => rfl
  | succ n ih => simp [bytesOfNat, ih]

/-- Byte `k` holds bits `8k + 7 : 8k`. -/
theorem bytesOfNat_getElem? {n k : Nat} (v : Nat) (h : k < n) :
    (bytesOfNat n v)[k]? = some (BitVec.ofNat 8 (v / 256 ^ k)) := by
  induction n generalizing v k with
  | zero => omega
  | succ n ih =>
    cases k with
    | zero => simp [bytesOfNat]
    | succ k =>
      rw [bytesOfNat, List.getElem?_cons_succ, ih _ (by omega), Nat.div_div_eq_div_mul, Nat.pow_succ']

/-- A number that fits reads back from its bytes. -/
theorem wordOfBytes_bytesOfNat {n v : Nat} (h : v < 256 ^ n) : wordOfBytes (bytesOfNat n v) = v := by
  induction n generalizing v with
  | zero => simp only [Nat.pow_zero] at h; simp [bytesOfNat, wordOfBytes]; omega
  | succ n ih =>
    have hd : v / 256 < 256 ^ n := Nat.div_lt_of_lt_mul (by rw [← Nat.pow_succ']; exact h)
    simp only [bytesOfNat, wordOfBytes, ih hd, BitVec.toNat_ofNat]
    omega

/-- Bytes read back from their number. -/
theorem bytesOfNat_wordOfBytes (xs : List Byte) : bytesOfNat xs.length (wordOfBytes xs) = xs := by
  induction xs with
  | nil => rfl
  | cons x xs ih =>
    have hx := x.isLt
    have hd : (x.toNat + 256 * wordOfBytes xs) / 256 = wordOfBytes xs := by omega
    have hm : BitVec.ofNat 8 (x.toNat + 256 * wordOfBytes xs) = x := by
      apply BitVec.eq_of_toNat_eq; rw [BitVec.toNat_ofNat]; omega
    rw [List.length_cons, bytesOfNat, wordOfBytes, hd, hm, ih]

/-- The number of bytes fits them. -/
theorem wordOfBytes_lt (xs : List Byte) : wordOfBytes xs < 256 ^ xs.length := by
  induction xs with
  | nil => simp [wordOfBytes]
  | cons x xs ih =>
    have hx := x.isLt
    rw [wordOfBytes, List.length_cons, Nat.pow_succ]
    omega

/-- A word decodes to a command exactly when its `op` is listed and its fixed bits match the row (30_encoding.md R62). -/
theorem decode_ok_iff (w : CmdWord) (i : Instr) :
    decode w = .ok i ↔
      ∃ o, Opcode.ofByte (opOf w) = some o ∧ w &&& o.format.mask = o.matchBits ∧ i = Instr.ofFields o w := by
  unfold decode
  cases h : Opcode.ofByte (opOf w) with
  | none => simp
  | some o =>
    simp only [Option.some.injEq]
    by_cases hm : w &&& o.format.mask = o.matchBits
    · rw [if_pos hm]
      constructor
      · intro e; exact ⟨o, rfl, hm, by simpa [eq_comm] using e⟩
      · rintro ⟨_, rfl, -, rfl⟩; rfl
    · rw [if_neg hm]
      constructor
      · intro e; cases e
      · rintro ⟨_, rfl, h, -⟩; exact absurd h hm

end Sys2Proof
end

