-- ==== Sys2Proof/Laws/Meanings.lean ====
section
/-! SUPPORT. The commands that read or write several buckets, and the port event, as equations and cases over the shared
operations. -/

namespace Sys2Proof.Machine

variable {s : State}

/-- TEST on a ready instance. -/
theorem execTest_ready (hl : s.cfg.legal) (hf : s.fault = false) (dig : Value) :
    execTest dig s = .next (respond .ok (boolValue ((indexList s.cfg dig).all (fun j => s.bkt j != 0))) s) := by
  unfold execTest
  rw [whenReady_of_ready _ hl hf, member_ok _ _ (indexList_lt hl.2.1.1 dig), orFault_ok]

/-- ADD on a ready instance. -/
theorem execAdd_ready (hl : s.cfg.legal) (hf : s.fault = false) (dig : Value) :
    execAdd dig s = .next (respond .ok 0 (countUp { s with mem := bumpAllMem 1 (indexList s.cfg dig) s })) := by
  unfold execAdd
  rw [whenReady_of_ready _ hl hf, bumpAll_ok _ _ _ (indexList_lt hl.2.1.1 dig), orFault_ok]

/-- TESTADD on a ready instance. -/
theorem execTestadd_ready (hl : s.cfg.legal) (hf : s.fault = false) (dig : Value) :
    execTestadd dig s = .next (respond .ok (boolValue ((indexList s.cfg dig).all (fun j => s.bkt j != 0)))
      (countUp { s with mem := bumpAllMem 1 (indexList s.cfg dig) s })) := by
  unfold execTestadd
  rw [whenReady_of_ready _ hl hf, member_ok _ _ (indexList_lt hl.2.1.1 dig), orFault_ok,
    bumpAll_ok _ _ _ (indexList_lt hl.2.1.1 dig), orFault_ok]

/-- TESTREM on a ready instance. -/
theorem execTestrem_ready (hl : s.cfg.legal) (hf : s.fault = false) (dig : Value) :
    execTestrem dig s =
      if (indexList s.cfg dig).all (fun j => s.bkt j != 0) = true then
        .next (respond .ok 1 (releaseScratch (countDown
          { stageScratch (indexList s.cfg dig) s with mem := bumpAllMem (-1) (indexList s.cfg dig) s })))
      else .next (respond .ok 0 (releaseScratch (stageScratch (indexList s.cfg dig) s))) := by
  unfold execTestrem
  rw [whenReady_of_ready _ hl hf]
  simp only
  rw [stagedIndices_indexList _ _ hl.2.1.1, member_ok (stageScratch _ s) _ (indexList_lt hl.2.1.1 dig), orFault_ok,
    bumpAll_ok _ _ (stageScratch _ s) (indexList_lt hl.2.1.1 dig), orFault_ok,
    bumpAllMem_congr (-1) _ (stageScratch _ s) s rfl rfl]
  rfl

/-- BINC on a ready instance, inside the bucket index space. -/
theorem execBinc_inside (hl : s.cfg.legal) (hf : s.fault = false) {idx : Value} (delta : BitVec 32)
    (h : idx.toNat < s.cfg.m.toNat) :
    execBinc idx delta s = .next (respond .ok (BitVec.ofNat 64 (bumped s.cfg (s.bkt idx.toNat) (deltaOf delta)))
      { s with mem := bumpMem (deltaOf delta) idx.toNat s }) := by
  unfold execBinc
  rw [whenReady_of_ready _ hl hf, checkIndex_inside _ h]
  unfold indexOf
  rw [readBucket_ok h, orFault_ok, writeBucket_ok _ h, orFault_ok]
  rfl

/-- The answer to a word that is no command, on an instance that exists. -/
theorem rejectWord_legal (w : CmdWord) (hl : s.cfg.legal) :
    rejectWord w s = .next (respond (if s.fault && !statusReadOp (opOf w) then .faulted else .illegal) 0 s) := by
  unfold rejectWord
  rw [whenLegal_of_legal _ hl]
  split <;> rfl

/-- What one port event can be: a hardware reset, an accepted word executed on the readied state, or a handshake alone. -/
theorem step_cases {t : State} (h : step s = .next t) :
    s.cfg.legal ∧
    (((currentInput s).rst = true ∧ t = hardReset (takeInput s)) ∨
     ((currentInput s).rst = false ∧ accepts s = true ∧ executeWord (currentInput s).cmdData (readied s) = .next t) ∨
     ((currentInput s).rst = false ∧ accepts s = false ∧ t = readied s)) := by
  unfold step portEvent at h
  by_cases hl : s.cfg.legal
  · rw [whenLegal_of_legal _ hl] at h
    refine ⟨hl, ?_⟩
    split at h
    · next h1 => cases h; exact .inl ⟨h1, rfl⟩
    · next h1 =>
      split at h
      · next h2 => exact .inr (.inl ⟨by simpa using h1, h2, h⟩)
      · next h2 => cases h; exact .inr (.inr ⟨by simpa using h1, by simpa using h2, rfl⟩)
  · rw [whenLegal_of_illegal _ hl] at h
    cases h

/-- What happens to the pending response where a command may be accepted: it stays, or it is delivered. -/
theorem readied_rsp (s : State) :
    ((readied s).rsp = s.rsp ∧ (readied s).delivered = s.delivered ∧
      (s.rsp = none ∨ (currentInput s).rspReady = false)) ∨
    ∃ r, s.rsp = some r ∧ (currentInput s).rspReady = true ∧ (readied s).rsp = none ∧
      (readied s).delivered = s.delivered ++ [r] := by
  unfold readied
  cases h : (currentInput s).rspReady
  · left; simp
  · cases hr : s.rsp with
    | none => left; rw [deliver_of_rsp_none _ (by simpa using hr)]; simp [hr]
    | some r => right; rw [deliver_of_rsp_some (r := r) (by simpa using hr)]; exact ⟨r, rfl, rfl, rfl, rfl⟩

end Sys2Proof.Machine
end

