-- ==== Sys2Proof/Tests/Slice0.lean ====
section
/-! SUPPORT. Tests: expected values come from the tables of 95_test_vectors.md and the rules, never from the model. A
configuration is written `(m, k, b)`. The witness theorems show states and operands that meet the hypotheses of the
statement they are named after. -/

namespace Sys2Proof.Tests

open Sys2Proof Sys2Proof.Machine

/-! ### Helpers -/

/-- A configuration on the widest bounds R8 allows. -/
def config (m k : Value) (b : BitVec 4) : Config :=
  { m := m, k := k, b := b, mMax := 0xFFFFFFFFFFFFFFFF, kMax := 0x100000000 }

/-- A configuration on given bounds. -/
def bounded (m k : Value) (b : BitVec 4) (mMax kMax : Value) : Config :=
  { m := m, k := k, b := b, mMax := mMax, kMax := kMax }

/-- A ready instance with some storage bytes and COUNT. -/
def ready (c : Config) (mem : List Host.Cell) (count : Value) : State :=
  { State.resetWith c with mem := mem, count := count }

/-- The `(16, 3, 4)` instance of V8 and P4 after `BGET 99`. -/
def faulted99 : State := { State.resetWith (config 16 3 4) with fault := true, cause := 2, finfo := 99 }

/-- Does an outcome go on, to a state with a property? -/
def goesTo (o : Host.Outcome State Fault Refusal) (p : State → Bool) : Bool :=
  match o with
  | .next t => p t
  | _ => false

/-- Is the outcome a refusal of the configuration? -/
def refusesConfig (o : Host.Outcome State Fault Refusal) : Bool :=
  match o with
  | .refused .invalidConfiguration => true
  | _ => false

/-- The response an outcome presents. -/
def answer (o : Host.Outcome State Fault Refusal) : Option Response :=
  match o with
  | .next t => t.rsp
  | _ => none

/-- Was this the response? -/
def answered (t : State) (st : Status) (v : Value) : Bool := t.rsp == some { status := st, value := v }

/-- V5: `(16, 3, 4)` with buckets 5, 8, 11 as given; bucket `j` is a nibble of byte `j / 2`, an even one the low nibble. -/
def v5 (b5 b8 b11 : Nat) (count : Value) : State :=
  ready (config 16 3 4) ([(2, BitVec.ofNat 8 (16 * b5)), (4, BitVec.ofNat 8 b8), (5, BitVec.ofNat 8 (16 * b11))].filter
    (fun c => c.2 != 0)) count

/-- The digest of the running example: index list `[5, 8, 11]`. -/
def dig3 : Value := 0x0000000300000005

/-- A state with a response pending and the next port event as given. -/
def pending (s : State) (r : Response) (p : PortIn) : State := { s with rsp := some r, inputs := [p] }

/-- V6: `(10, 5, 3)` with bucket 2 (storage bits 6 to 8) and bucket 7 (storage bits 21 to 23) as given. -/
def v6 (b2 b7 : Nat) (count : Value) : State :=
  ready (config 10 5 3) ([(0, BitVec.ofNat 8 (64 * (b2 % 4))), (1, BitVec.ofNat 8 (b2 / 4)),
    (2, BitVec.ofNat 8 (32 * b7))].filter (fun c => c.2 != 0)) count

/-! ### Well-formedness: an ill-formed term for each check -/

/-- R131: the limits themselves are legal, and so are `m = M_MAX` with `k = K_MAX`. -/
theorem test_config_legal :
    (config 16 3 4).legal ∧ (config 1 1 1).legal ∧ (config 0xFFFFFFFFFFFFFFFF 0x100000000 8).legal ∧
    (bounded 16 3 4 16 3).legal := by decide

/-- R131: each of the six ways a configuration is invalid. -/
theorem test_config_checks :
    ¬ (config 0 3 4).legal ∧ ¬ (bounded 16 3 4 15 3).legal ∧ ¬ (config 16 0 4).legal ∧
    ¬ (bounded 16 3 4 16 2).legal ∧ ¬ (config 16 3 0).legal ∧ ¬ (config 16 3 9).legal := by decide

/-- R8: each way the bounds are out of range (a 64-bit `M_MAX` cannot exceed its bound). -/
theorem test_bounds_checks :
    ¬ (bounded 16 3 4 0 3).legal ∧ ¬ (bounded 16 3 4 16 0).legal ∧ ¬ (bounded 16 3 4 16 0x100000001).legal := by decide

/-- R131: an invalid configuration is refused, at construction and by a state that claims it. -/
theorem test_invalid_config_refused :
    refusesConfig (construct (config 0 3 4)) = true ∧
    refusesConfig (exec .rdstat (State.resetWith (config 16 3 9))) = true ∧
    refusesConfig (step (State.resetWith (config 16 0 4))) = true := by decide

/-- The canonical form refuses a zero byte, a repeated address and falling addresses. -/
theorem test_memory_checks :
    Memory.wf [(2, 0x10), (4, 0x01)] ∧ ¬ Memory.wf [(2, 0)] ∧ ¬ Memory.wf [(2, 1), (2, 1)] ∧
    ¬ Memory.wf [(4, 1), (2, 1)] := by decide

/-- R68: operand ranges and shapes, one ill-formed line for each check. -/
theorem test_line_checks :
    SrcLine.wf { mnemonic := .core .bget, operands := [.num 18446744073709551615] } = true ∧
    SrcLine.wf { mnemonic := .core .bget, operands := [.num 18446744073709551616] } = false ∧
    SrcLine.wf { mnemonic := .core .bget, operands := [.num (-1)] } = false ∧
    SrcLine.wf { mnemonic := .core .binc, operands := [.num 0, .num (-2147483648)] } = true ∧
    SrcLine.wf { mnemonic := .core .binc, operands := [.num 0, .num (-2147483649)] } = false ∧
    SrcLine.wf { mnemonic := .core .binc, operands := [.num 0, .num 2147483648] } = false ∧
    SrcLine.wf { mnemonic := .core .cnt, operands := [.num 0] } = false ∧
    SrcLine.wf { mnemonic := .core .test, operands := [] } = false ∧
    SrcLine.wf { mnemonic := .teste, operands := [.num 1] } = false := by decide

/-! ### Decoding: a word written out from R56 and R61 for every constructor -/

/-- Format D (V1, P1, P4). -/
theorem test_decode_membership :
    decode 0x00000003000000050000000000000001 = .ok (.test 0x0000000300000005) ∧
    decode 0x9E3779B97F4A7C150000000000000002 = .ok (.add 0x9E3779B97F4A7C15) ∧
    decode 0x00000002000000010000000000000003 = .ok (.testadd 0x0000000200000001) ∧
    decode 0x00000008000000020000000000000004 = .ok (.testrem 0x0000000800000002) := by decide

/-- Formats I, ID and N of the bucket commands (P2). -/
theorem test_decode_bucket :
    decode 0x00000000000000630000000000000010 = .ok (.bget 99) ∧
    decode 0x00000000000000008000000000000011 = .ok (.binc 0 0x80000000) ∧
    decode 0x00000000000000047FFFFFFF00000011 = .ok (.binc 4 0x7FFFFFFF) ∧
    decode 0x00000000000000000000000000000012 = .ok .breset := by decide

/-- Format N (V9, P1). -/
theorem test_decode_no_operand :
    decode 0x00000000000000000000000000000005 = .ok .reset ∧ decode 0x00000000000000000000000000000006 = .ok .cap ∧
    decode 0x00000000000000000000000000000007 = .ok .krd ∧ decode 0x00000000000000000000000000000008 = .ok .cnt ∧
    decode 0x00000000000000000000000000000020 = .ok .rdstat ∧
    decode 0x00000000000000000000000000000021 = .ok .rdfinfo := by decide

/-- V9: unlisted opcodes are rejected as such. -/
theorem test_decode_unlisted :
    [0x00, 0x09, 0x13, 0x22, 0xFF].all (fun w =>
      decide (decode (BitVec.ofNat 128 w) = .error (.unlistedOpcode (BitVec.ofNat 8 w)))) = true := by decide

/-- V9: words with a reserved bit set are rejected as such, formats N, N, N, D, D, I, ID, ID. -/
theorem test_decode_reserved :
    decode 0x0000000000000000000000000000FF05 = .error (.reservedBits 0x05) ∧
    decode 0x00000000000000000000000100000006 = .error (.reservedBits 0x06) ∧
    decode 0x00000000000000010000000000000008 = .error (.reservedBits 0x08) ∧
    decode 0x00000000000000000000000000000101 = .error (.reservedBits 0x01) ∧
    decode 0x00000003000000050000000100000001 = .error (.reservedBits 0x01) ∧
    decode 0x00000000000000030000000000000110 = .error (.reservedBits 0x10) ∧
    decode 0x0000000000000003FFFFFFFF80000011 = .error (.reservedBits 0x11) ∧
    decode 0x0000000000000063FFFFFFFF00000F11 = .error (.reservedBits 0x11) := by decide

/-- R45: byte 0 of a transport is bits 7:0; fewer than 16 bytes are no word. -/
theorem test_decode_bytes :
    decodeBytes [0x11, 0, 0, 0, 0xFF, 0xFF, 0xFF, 0xFF, 2, 0, 0, 0, 0, 0, 0, 0, 0xAA] = .ok (.binc 2 0xFFFFFFFF, [0xAA]) ∧
    decodeBytes [0x08, 0] = .error .truncated := by decide

/-- The opcode table's match words decode, and run as the first instruction after reset. -/
theorem test_table_words_run :
    [0x01, 0x02, 0x03, 0x04, 0x05, 0x06, 0x07, 0x08, 0x10, 0x11, 0x12, 0x20, 0x21].all (fun w =>
      (decodeTableWord 128 w).isSome &&
      goesTo (step (State.reset.withFetchWord 128 w)) (fun t =>
        t.inputs == [] && (t.rsp.map (fun r => r.status) == some .ok))) = true := by decide

/-! ### Index lists and packing -/

/-- V1, index lists. -/
theorem test_index_lists :
    indexList (config 16 3 4) 0x0000000300000005 = [5, 8, 11] ∧
    indexList (config 9586 7 4) 0x9E3779B97F4A7C15 = [9195, 4876, 557, 5824, 1505, 6772, 2453] ∧
    indexList (config 8 3 2) 0x0000000800000002 = [2, 2, 2] ∧
    indexList (config 7 10 4) 0x0000000100000000 = [0, 1, 2, 3, 4, 5, 6, 0, 1, 2] ∧
    indexList (config 0xFFFFFFFFFFFFFFFF 3 4) 0xFFFFFFFFFFFFFFFF = [4294967295, 8589934590, 12884901885] := by decide

/-- The storage after a bucket write on a storage, where it succeeds. -/
def stored (c : Config) (mem : List Host.Cell) (j v : Nat) : Option (List Host.Cell) :=
  match writeBucket (ready c mem 0) j v with
  | .ok t => some t.mem
  | .error _ => none

/-- V2, `m = 5, b = 3`: bucket 2 straddles bytes 0 and 1. -/
theorem test_packing_straddle :
    stored (config 5 2 3) [] 2 5 = some [(0, 0x40), (1, 0x01)] ∧
    stored (config 5 2 3) [(0, 0x40), (1, 0x01)] 0 7 = some [(0, 0x47), (1, 0x01)] ∧
    stored (config 5 2 3) [(0, 0x47), (1, 0x01)] 4 6 = some [(0, 0x47), (1, 0x61)] ∧
    stored (config 5 2 3) [(0, 0x47), (1, 0x61)] 1 3 = some [(0, 0x5F), (1, 0x61)] ∧
    stored (config 5 2 3) [(0, 0x5F), (1, 0x61)] 3 1 = some [(0, 0x5F), (1, 0x63)] := by decide

/-- V2, `b = 8`, `b = 1`, `b = 5`; a bucket index at `m` and a byte at NBYTES do not exist. -/
theorem test_packing_widths :
    stored (config 3 1 8) [] 1 0xA5 = some [(1, 0xA5)] ∧
    stored (config 9 1 1) [(0, 0x01)] 8 1 = some [(0, 0x01), (1, 0x01)] ∧
    stored (config 4 1 5) [] 1 31 = some [(0, 0xE0), (1, 0x03)] ∧
    stored (config 4 1 5) [(0, 0xE0), (1, 0x03)] 2 17 = some [(0, 0xE0), (1, 0x47)] ∧
    stored (config 4 1 5) [] 4 1 = none ∧ (memRead (ready (config 4 1 5) [] 0) 2).toBool = true ∧
    (memRead (ready (config 4 1 5) [] 0) 3).toBool = false := by decide

/-! ### Commands, at most two theorems each -/

/-- V5, TEST: `[1,1,1]` answers 1. -/
theorem test_test_member : goesTo (exec (.test dig3) (v5 1 1 1 1)) (fun t => answered t .ok 1) = true := by decide
/-- V5, TEST: `[1,1,0]` answers 0. -/
theorem test_test_absent : goesTo (exec (.test dig3) (v5 1 1 0 0)) (fun t => answered t .ok 0) = true := by decide

/-- V5, ADD on `[15,2,1]`, COUNT 3: saturates to `[15,3,2]`, COUNT 4. -/
theorem test_add_saturates :
    goesTo (exec (.add dig3) (v5 15 2 1 3)) (fun t =>
      answered t .ok 0 && t.mem == [(2, 0xF0), (4, 0x03), (5, 0x20)] && t.count == 4) = true := by decide
/-- V7, ADD at COUNT `2^64 - 1` wraps to 0. -/
theorem test_add_count_wraps :
    goesTo (exec (.add dig3) (v5 0 0 0 0xFFFFFFFFFFFFFFFF)) (fun t =>
      t.count == 0 && t.mem == [(2, 0x10), (4, 0x01), (5, 0x10)]) = true := by decide

/-- V5, TESTADD on `[1,1,0]`: answers 0 and gives `[2,2,1]`. -/
theorem test_testadd_absent :
    goesTo (exec (.testadd dig3) (v5 1 1 0 0)) (fun t =>
      answered t .ok 0 && t.mem == [(2, 0x20), (4, 0x02), (5, 0x10)] && t.count == 1) = true := by decide
/-- V6, TESTADD with repeats on `[7,6]`, COUNT 4: answers 1, `[7,7]`, COUNT 5. -/
theorem test_testadd_repeats :
    goesTo (exec (.testadd 0x0000000500000007) (v6 7 6 4)) (fun t =>
      answered t .ok 1 && t.bkt 2 == 7 && t.bkt 7 == 7 && t.count == 5) = true := by decide +kernel

/-- V6, TESTREM with repeats on `[1,1]`, COUNT 1: both clamp to 0, COUNT 0. -/
theorem test_testrem_clamps :
    goesTo (exec (.testrem 0x0000000500000007) (v6 1 1 1)) (fun t =>
      answered t .ok 1 && t.mem == [] && t.count == 0) = true := by decide +kernel
/-- V6, TESTREM on `[0,2]`: answers 0 and changes neither storage nor COUNT. -/
theorem test_testrem_absent :
    goesTo (exec (.testrem 0x0000000500000007) (v6 0 2 0)) (fun t =>
      answered t .ok 0 && t.mem == (v6 0 2 0).mem && t.count == 0) = true := by decide

/-- V4, RESET: buckets and COUNT 0. -/
theorem test_reset : goesTo (exec .reset (v5 3 0 0 7)) (fun t => answered t .ok 0 && t.mem == [] && t.count == 0) = true := by
  decide
/-- V4, BRESET: buckets 0, COUNT kept. -/
theorem test_breset : goesTo (exec .breset (v5 3 0 0 7)) (fun t => answered t .ok 0 && t.mem == [] && t.count == 7) = true := by
  decide

/-- P1 step 8, CAP at `m = 9586`. -/
theorem test_cap : answer (exec .cap (ready (config 9586 7 4) [] 0)) = some ⟨.ok, 0x2572⟩ := by decide
/-- P1 step 9, KRD at `k = 7`. -/
theorem test_krd : answer (exec .krd (ready (config 9586 7 4) [] 0)) = some ⟨.ok, 7⟩ := by decide
/-- V8, CNT ready and faulted. -/
theorem test_cnt :
    goesTo (exec .cnt (v5 0 0 0 7)) (fun t => answered t .ok 7) = true ∧
    goesTo (exec .cnt faulted99) (fun t => answered t .faulted 0) = true := by decide

/-- V3, `BGET 15` with `Bkt(15) = 9`: byte 7, high nibble. -/
theorem test_bget_last :
    goesTo (exec (.bget 15) (ready (config 16 3 4) [(7, 0x90)] 0)) (fun t => answered t .ok 9 && t.fault == false) = true := by
  decide
/-- V3, `BGET 0xFFFFFFFFFFFFFFFF` raises RANGE. -/
theorem test_bget_range :
    goesTo (exec (.bget 0xFFFFFFFFFFFFFFFF) (v5 1 1 1 0)) (fun t =>
      answered t .range 0 && t.fault && t.cause == 2 && t.finfo == 0xFFFFFFFFFFFFFFFF && t.mem == (v5 1 1 1 0).mem) = true := by
  decide

/-- P2 step 7, `BINC 4, 2147483647` on `S = 00 30`: 7, `S = 00 70`. -/
theorem test_binc_saturates :
    goesTo (exec (.binc 4 0x7FFFFFFF) (ready (config 5 2 3) [(1, 0x30)] 0)) (fun t =>
      answered t .ok 7 && t.mem == [(1, 0x70)]) = true := by decide
/-- P2 step 5, `BINC 2, -10` on `S = c0 01`: 0, `S = 00 00`; V3, `BINC 16, 1` raises RANGE. -/
theorem test_binc_clamps_and_range :
    goesTo (exec (.binc 2 0xFFFFFFF6) (ready (config 5 2 3) [(0, 0xC0), (1, 0x01)] 0)) (fun t =>
      answered t .ok 0 && t.mem == []) = true ∧
    goesTo (exec (.binc 16 1) (v5 1 1 1 0)) (fun t => answered t .range 0 && t.finfo == 16) = true := by decide

/-- V8, RDSTAT ready and faulted. -/
theorem test_rdstat :
    goesTo (exec .rdstat (v5 1 1 1 0)) (fun t => answered t .ok 0) = true ∧
    goesTo (exec .rdstat faulted99) (fun t => answered t .ok 0x21 && t.fault) = true := by decide
/-- V8, RDFINFO faulted. -/
theorem test_rdfinfo : goesTo (exec .rdfinfo faulted99) (fun t => answered t .ok 0x63) = true := by decide

/-! ### Words and ports -/

/-- V9 and P4: the faulted state answers FAULTED to word 0, ILLEGAL to RDSTAT with reserved bit 8. -/
theorem test_faulted_words :
    goesTo (executeWord 0 faulted99) (fun t => answered t .faulted 0) = true ∧
    goesTo (executeWord 0x00000000000000000000000000000005 faulted99) (fun t => answered t .faulted 0 && t.fault) = true ∧
    goesTo (executeWord 0x00000000000000000000000000000120 faulted99) (fun t => answered t .illegal 0) = true := by decide

/-- V9: ILLEGAL before RANGE; the legal word is RANGE. -/
theorem test_illegal_before_range :
    goesTo (executeWord 0x0000000000000063FFFFFFFF00000F11 State.reset) (fun t => answered t .illegal 0 && !t.fault) = true ∧
    goesTo (executeWord 0x0000000000000063FFFFFFFF00000011 State.reset) (fun t =>
      answered t .range 0 && t.fault && t.finfo == 99) = true := by decide

/-- R141: hardware reset with a response pending drops it and clears what the command did. -/
theorem test_reset_in_flight :
    goesTo (step (pending (v5 1 1 1 1) ⟨.ok, 0⟩ ⟨true, true, 8, true⟩)) (fun t =>
      t.mem == [] && t.count == 0 && t.rsp == none && t.delivered == []) = true := by decide

/-- R54, R77: a pending response blocks the next command until it is taken. -/
theorem test_handshake :
    goesTo (step (pending (v5 0 0 0 7) ⟨.ok, 5⟩ ⟨false, true, 8, false⟩)) (fun t =>
      answered t .ok 5 && t.delivered == []) = true ∧
    goesTo (step (pending (v5 0 0 0 7) ⟨.ok, 5⟩ ⟨false, true, 8, true⟩)) (fun t =>
      answered t .ok 7 && t.delivered == [{ status := .ok, value := 5 }]) = true := by decide

/-- R45, R59: `(OK, 9586)` and `(FAULTED, 0)` as bytes; a reserved code and a missing byte are no response. -/
theorem test_response_bytes :
    valueBytes ⟨.ok, 9586⟩ = [0x72, 0x25, 0, 0, 0, 0, 0, 0] ∧ statusBytes ⟨.faulted, 0⟩ = [0x03] ∧
    responseOfBytes [0x02] [0, 0, 0, 0, 0, 0, 0, 0x80] = some ⟨.range, 0x8000000000000000⟩ ∧
    responseOfBytes [0x04] [0, 0, 0, 0, 0, 0, 0, 0] = none ∧ responseOfBytes [0x10] [0, 0, 0, 0, 0, 0, 0, 0] = none ∧
    responseOfBytes [0x00] [0, 0, 0, 0, 0, 0, 0] = none := by decide

/-! ### Assembler text -/

/-- R68 to R70: case, comments, blanks, hexadecimal, BDEC (P2 step 4), and the errors. -/
theorem test_assembler :
    assembleText ['b', 'D', 'e', 'C', ' ', '1', ' ', ';', 'x'] = .ok (some 0x0000000000000001FFFFFFFF00000011) ∧
    assembleText [' ', ';', 'c'] = .ok none ∧
    assembleText ['b', 'g', 'e', 't', ' ', '0', 'x', '6', '3'] = .ok (some 0x00000000000000630000000000000010) ∧
    assembleText ['f', 'o', 'o'] = .error .unknownMnemonic ∧
    assembleText ['b', 'g', 'e', 't', ' ', '-', '1'] = .error .badOperands ∧
    assembleText ['b', 'g', 'e', 't', ' ', 'z'] = .error .badOperand := by decide

/-- R71: an element form is its command on the host's digest of its bytes; `"a"` is the byte `0x61`. -/
theorem test_assembler_element :
    parseLine ['t', 'e', 's', 't', 'e', ' ', '"', 'a', '"'] = .ok { mnemonic := .teste, operands := [.bytes [0x61]] } ∧
    assembleLine { mnemonic := .teste, operands := [.bytes [0x61]] } = .ok (.pseudo (.teste [0x61])) ∧
    expandPseudo (.teste [0x61]) = .test (Config.hash [0x61]) := by
  refine ⟨by decide, by decide, rfl⟩

/-- R68: one command a line, and a word as 32 hexadecimal digits. -/
theorem test_assembler_lines :
    assemble ['c', 'n', 't', '\n', '\n', 'c', 'a', 'p'] = .ok [8, 6] ∧
    (wordText 0x0000000000000002FFFFFFFF00000011).drop 14 =
      ['0', '0', '0', '2', 'F', 'F', 'F', 'F', 'F', 'F', 'F', 'F', '0', '0', '0', '0', '0', '0', '1', '1'] := by decide

/-! ### Witnesses: states and operands that meet the hypotheses of the statement in the name -/

/-- The running example `(16, 3, 4)` with buckets 5, 8 and 11 at 1 and COUNT 1. -/
def w16 : State := v5 1 1 1 1

/-- `(5, 2, 3)`, which has a padding bit, with bucket 4 at MAX (P2). -/
def w5 : State := ready (config 5 2 3) [(1, 0x70)] 0

/-- `(8, 3, 2)` with bucket 2 at 1: the example of R106. -/
def w8 : State := ready (config 8 3 2) [(0, 0x10)] 1

/-- `w16` with one port event driven. -/
def driven (p : PortIn) : State := { w16 with inputs := [p] }

/-- The padding bits of a state with no byte past its storage, from those inside it. -/
theorem padding_of_inside (s : State) (hi : ∀ c ∈ s.mem, c.1 < nbytes s.cfg)
    (h : ∀ p, p < 8 * nbytes s.cfg → s.cfg.m.toNat * s.cfg.b.toNat ≤ p → memBit s.mem p = false) :
    ∀ p, s.cfg.m.toNat * s.cfg.b.toNat ≤ p → memBit s.mem p = false := by
  intro p hp
  by_cases hq : p < 8 * nbytes s.cfg
  · exact h p hq hp
  · unfold memBit
    rw [memGet_past hi (by omega)]
    simp

theorem witness_InvAtReset : (config 1 1 1).legal ∧ (config 0xFFFFFFFFFFFFFFFF 0x100000000 8).legal := by decide

/-- Ready, with buckets set, the padding bit next to one of them. -/
theorem witness_StepKeepsInv : Safety.Inv w5 ∧ Safety.goesOn (step w5) :=
  ⟨⟨by decide, by decide, by decide, padding_of_inside _ (by decide) (by decide +kernel), by decide, by decide,
    (fun _ h => nomatch h), (fun _ h => nomatch h)⟩, _, rfl⟩

/-- Faulted, with FINFO at or above `m`. -/
theorem witness_StepKeepsInv_faulted : Safety.Inv faulted99 ∧ faulted99.fault = true ∧ Safety.goesOn (step faulted99) :=
  ⟨⟨by decide, by decide, by decide, padding_of_inside _ (by decide) (by decide +kernel), by decide, by decide,
    (fun _ h => nomatch h), (fun _ h => nomatch h)⟩, rfl, _, rfl⟩

theorem witness_ResetMatchesHardwareReset : Safety.Inv w5 ∧ w5.fault = false ∧ Safety.Inv faulted99 ∧ faulted99.fault = true :=
  ⟨witness_StepKeepsInv.1, rfl, witness_StepKeepsInv_faulted.1, rfl⟩

theorem witness_StatusReadsAnswer : Safety.Inv w5 ∧ w5.fault = false ∧ Safety.Inv faulted99 ∧ faulted99.fault = true :=
  witness_ResetMatchesHardwareReset

theorem witness_EncodeInvertsDecode :
    decode 0xFFFFFFFFFFFFFFFFFFFFFFFF00000011 = .ok (.binc 0xFFFFFFFFFFFFFFFF 0xFFFFFFFF) ∧
    decode 0xFFFFFFFFFFFFFFFF0000000000000004 = .ok (.testrem 0xFFFFFFFFFFFFFFFF) ∧
    decode 0x00000000000000000000000000000001 = .ok (.test 0) := by decide

/-- One word of each operand form, the fields at their ends. -/
theorem witness_OperandsAreTheWordsFields :
    decode 0x80000000000000010000000000000003 = .ok (.testadd 0x8000000000000001) ∧
    digestUpper 0x8000000000000001 = 0x80000000 ∧ digestLower 0x8000000000000001 = 1 ∧
    decode 0xFFFFFFFFFFFFFFFF0000000000000010 = .ok (.bget 0xFFFFFFFFFFFFFFFF) ∧
    decode 0x00000000000000008000000000000011 = .ok (.binc 0 0x80000000) ∧ deltaOf 0x80000000 = -2147483648 := by decide

theorem witness_AssemblerChecksRanges :
    inRange64 0 ∧ inRange64 (2 ^ 64 - 1) ∧ inRangeDelta (-2 ^ 31) ∧ inRangeDelta (2 ^ 31 - 1) := by decide

/-- A word accepted with no response pending, and with one pending that is taken at the same event. -/
theorem witness_StepRunsDecodedCommand :
    (driven ⟨false, true, 8, false⟩).cfg.legal ∧ (driven ⟨false, true, 8, false⟩).rsp = none ∧
    (currentInput (driven ⟨false, true, 8, false⟩)).cmdValid = true ∧
    (currentInput (driven ⟨false, true, 8, false⟩)).rst = false ∧ decode 8 = .ok .cnt ∧
    (currentInput (pending w16 ⟨.ok, 5⟩ ⟨false, true, 8, true⟩)).rspReady = true ∧
    (pending w16 ⟨.ok, 5⟩ ⟨false, true, 8, true⟩).cfg.legal := by decide

theorem witness_ExecuteFollowsDispatchOrder : w16.cfg.legal ∧ faulted99.cfg.legal := by decide

theorem witness_StatusPriority : w16.cfg.legal ∧ w16.fault = false ∧ w16.cfg.m = 16 := by decide

/-- The ends of every unlisted range, ready. -/
theorem witness_UnlistedOpcodeIsIllegal :
    w16.cfg.legal ∧ w16.fault = false ∧ opOf 0x100 = 0x00 ∧
    (0x09 ≤ (opOf 0x09).toNat ∧ (opOf 0x0F).toNat ≤ 0x0F) ∧ (0x13 ≤ (opOf 0x13).toNat ∧ (opOf 0x1F).toNat ≤ 0x1F) ∧
    0x22 ≤ (opOf 0x22).toNat ∧ 0x22 ≤ (opOf 0xFF).toNat := by decide

/-- The lowest and the highest reserved bit of each format. -/
theorem witness_ReservedBitIsIllegal :
    (opOf 0x105 = Opcode.code .reset ∧ BitVec.extractLsb' 8 120 (0x105#128) ≠ 0 ∧
      BitVec.extractLsb' 8 120 (0x80000000000000000000000000000005#128) ≠ 0) ∧
    (opOf 0x101 = Opcode.code .test ∧ BitVec.extractLsb' 8 56 (0x101#128) ≠ 0 ∧
      BitVec.extractLsb' 8 56 (0x8000000000000001#128) ≠ 0) ∧
    (opOf 0x110 = Opcode.code .bget ∧ BitVec.extractLsb' 8 56 (0x8000000000000010#128) ≠ 0) ∧
    (opOf 0x111 = Opcode.code .binc ∧ BitVec.extractLsb' 8 24 (0x111#128) ≠ 0 ∧
      BitVec.extractLsb' 8 24 (0x80000011#128) ≠ 0) := by decide

theorem witness_IllegalIsNotSticky :
    w16.cfg.legal ∧ w16.fault = false ∧ Safety.illegalWord 0 = true ∧ Safety.illegalWord 0x105 = true := by decide

/-- The faulted state, a word that is no status read, and a status read with a reserved bit. -/
theorem witness_FaultedStateAnswersFaulted :
    faulted99.cfg.legal ∧ faulted99.fault = true ∧ opOf 0 ≠ 0x20 ∧ opOf 0 ≠ 0x21 ∧ opOf 0x120 = 0x20 ∧ opOf 0x121 = 0x21 ∧
    BitVec.extractLsb' 8 120 (0x120#128) ≠ 0 ∧ BitVec.extractLsb' 8 120 (0x121#128) ≠ 0 := by decide

theorem witness_RangeFaultEntry :
    w16.cfg.legal ∧ w16.fault = false ∧ w16.cfg.m.toNat ≤ (16 : Value).toNat ∧
    w16.cfg.m.toNat ≤ (0xFFFFFFFFFFFFFFFF : Value).toNat := by decide

/-- Faulted, without reset and with it. -/
theorem witness_FaultLastsUntilHardwareReset :
    faulted99.cfg.legal ∧ faulted99.fault = true ∧ (currentInput faulted99).rst = false ∧
    (currentInput { faulted99 with inputs := [⟨true, false, 0, false⟩] }).rst = true := by decide

/-- A command and a port event that take the machine from ready to faulted. -/
theorem witness_OnlyRangeSetsFault :
    (∃ t, exec (.bget 16) w16 = .next t ∧ w16.fault = false ∧ t.fault = true) ∧
    ∃ t, step (driven ⟨false, true, 0x00000000000000100000000000000010, true⟩) = .next t ∧ t.fault = true :=
  ⟨⟨_, rfl, rfl, rfl⟩, _, rfl, rfl⟩

theorem witness_MembershipNeverRange : Safety.goesOn (exec (.test dig3) w16) ∧ Safety.goesOn (exec .rdfinfo w16) :=
  ⟨⟨_, rfl⟩, _, rfl⟩

/-- Legal bounds with a legal configuration and with each of the six ways to be invalid. -/
theorem witness_InvalidConfigurationRefused :
    (config 16 3 4).boundsLegal ∧ (config 16 3 4).legal ∧ (config 0 3 4).boundsLegal ∧ (bounded 17 3 4 16 3).boundsLegal ∧
    (config 16 0 4).boundsLegal ∧ (bounded 16 4 4 16 3).boundsLegal ∧ (config 16 3 0).boundsLegal ∧
    (config 16 3 9).boundsLegal ∧ ¬ (bounded 17 3 4 16 3).legal := by decide

/-- `rst` in a state with buckets set and a response pending, and in the faulted state. -/
theorem witness_HardwareResetValues :
    (pending w16 ⟨.ok, 1⟩ ⟨true, true, 8, true⟩).cfg.legal ∧
    (currentInput (pending w16 ⟨.ok, 1⟩ ⟨true, true, 8, true⟩)).rst = true ∧ faulted99.cfg.legal := by decide

theorem witness_ResetDiscardsCommandInFlight :
    (driven ⟨true, false, 0, false⟩).cfg.legal ∧ (currentInput (driven ⟨true, false, 0, false⟩)).rst = true ∧
    Safety.goesOn (executeWord 0x00000003000000050000000000000002 (driven ⟨true, false, 0, false⟩)) :=
  ⟨by decide, rfl, _, rfl⟩

theorem witness_ResponseHeldUntilTaken :
    (pending w16 ⟨.ok, 1⟩ ⟨false, true, 8, false⟩).cfg.legal ∧
    (currentInput (pending w16 ⟨.ok, 1⟩ ⟨false, true, 8, false⟩)).rst = false ∧
    (currentInput (pending w16 ⟨.ok, 1⟩ ⟨false, true, 8, false⟩)).rspReady = false := by decide

/-- Waiting with a response pending that is taken. -/
theorem witness_IdleEventChangesNoState :
    (pending w16 ⟨.ok, 1⟩ ⟨false, false, 0, true⟩).cfg.legal ∧
    (currentInput (pending w16 ⟨.ok, 1⟩ ⟨false, false, 0, true⟩)).rst = false ∧
    (currentInput (pending w16 ⟨.ok, 1⟩ ⟨false, false, 0, true⟩)).cmdValid = false := by decide

/-- A response taken with and without a word accepted, a response held, and a response lost to reset. -/
theorem witness_DeliveryTakesThePendingResponse :
    (∃ t, step (pending w16 ⟨.ok, 1⟩ ⟨false, true, 8, true⟩) = .next t ∧ t.delivered = [⟨.ok, 1⟩]) ∧
    (∃ t, step (pending w16 ⟨.ok, 1⟩ ⟨false, false, 0, true⟩) = .next t ∧
      accepts (pending w16 ⟨.ok, 1⟩ ⟨false, false, 0, true⟩) = false ∧ t.rsp = none) ∧
    (∃ t, step (pending w16 ⟨.ok, 1⟩ ⟨false, true, 8, false⟩) = .next t ∧ t.delivered = []) ∧
    ∃ t, step (pending w16 ⟨.ok, 1⟩ ⟨true, true, 8, true⟩) = .next t ∧ t.delivered = [] :=
  ⟨⟨_, rfl, rfl⟩, ⟨_, rfl, rfl, rfl⟩, ⟨_, rfl, rfl⟩, _, rfl, rfl⟩

/-- Two words and the event that takes the last response. -/
theorem witness_WordsAreServedInOrder :
    ∃ s : State, s.cfg.legal ∧ s.rsp = none ∧
      s.inputs = [0x08, 0x00].map PortIn.command ++ [{ rst := false, cmdValid := false, cmdData := 0, rspReady := true }] :=
  ⟨{ w16 with inputs := [0x08, 0x00].map PortIn.command ++ [⟨false, false, 0, true⟩] }, by decide, rfl, rfl⟩

theorem witness_LegalMachineNeverStops : w16.cfg.legal ∧ faulted99.cfg.legal ∧ (config 7 10 4).legal := by decide

theorem witness_CountWriters :
    (∃ t, exec (.add dig3) w16 = .next t ∧ t.count ≠ w16.count) ∧ ∃ t, exec (.testrem dig3) w16 = .next t ∧ t.count ≠ w16.count :=
  ⟨⟨_, rfl, by decide⟩, _, rfl, by decide⟩

/-- COUNT at its largest before ADD and TESTADD, and at 0 before a TESTREM that returns 1. -/
theorem witness_CountWraps :
    Safety.goesOn (exec (.add dig3) (v5 1 1 1 0xFFFFFFFFFFFFFFFF)) ∧
    Safety.goesOn (exec (.testadd dig3) (v5 1 1 1 0xFFFFFFFFFFFFFFFF)) ∧
    ∃ t, exec (.testrem dig3) (v5 1 1 1 0) = .next t ∧ t.rsp = some ⟨.ok, 1⟩ ∧ t.count = 0xFFFFFFFFFFFFFFFF :=
  ⟨⟨_, rfl⟩, ⟨_, rfl⟩, _, rfl, rfl, by decide⟩

theorem witness_ConfigurationNeverChanges : Safety.goesOn (step (driven ⟨false, true, 5, true⟩)) := ⟨_, rfl⟩

/-- `w16` with other scratch contents and a byte past the storage. -/
def w16' : State := { w16 with scratch := [1, 2, 3], mem := w16.mem ++ [(8, 0xFF)] }

theorem witness_LayoutNotObservable :
    w16.cfg.legal ∧ Safety.SameArch w16 w16' ∧ w16 ≠ w16' ∧
    Safety.goesOn (executeWord 0x00000003000000050000000000000004 w16) :=
  ⟨by decide, ⟨rfl, by decide +kernel, rfl, rfl, rfl, rfl⟩, by decide, _, rfl⟩

/-- A BGET that answers, a BGET that raises RANGE, and a status read. -/
theorem witness_ReadsHaveNoSideEffect :
    (∃ t, exec (.bget 5) w16 = .next t ∧ t.rsp ≠ some ⟨.range, 0⟩) ∧
    (∃ t, exec (.bget 16) w16 = .next t ∧ t.rsp = some ⟨.range, 0⟩) ∧
    ∃ t, exec .rdstat faulted99 = .next t ∧ t.rsp ≠ some ⟨.range, 0⟩ :=
  ⟨⟨_, rfl, by decide⟩, ⟨_, rfl, rfl⟩, _, rfl, by decide⟩

/-- The first and the last bucket, a value at MAX. -/
theorem witness_BucketWriteReadsBack :
    0 < w5.cfg.m.toNat ∧ 4 < w5.cfg.m.toNat ∧ 7 ≤ maxVal w5.cfg ∧ ¬ 8 ≤ maxVal w5.cfg := by decide

theorem witness_BucketReadIsItsBits : w5.cfg.legal ∧ 0 < w5.cfg.m.toNat ∧ 4 < w5.cfg.m.toNat ∧ ¬ 5 < w5.cfg.m.toNat := by decide

/-- The last byte and bucket, and a padding bit. -/
theorem witness_ZeroAllClearsStorage :
    w5.cfg.legal ∧ w5.fault = false ∧ 1 < nbytes w5.cfg ∧ 4 < w5.cfg.m.toNat ∧
    w5.cfg.m.toNat * w5.cfg.b.toNat ≤ 15 ∧ 15 < 8 * nbytes w5.cfg := by decide

theorem witness_BgetReadsBucket : w16.cfg.legal ∧ w16.fault = false := by decide

/-- The last index and the first one out of range. -/
theorem witness_BincAddsClamped :
    w5.cfg.legal ∧ w5.fault = false ∧ (4 : Value).toNat < w5.cfg.m.toNat ∧ w5.cfg.m.toNat ≤ (5 : Value).toNat := by decide

/-- Bucket 4 at MAX, and the largest delta. -/
theorem witness_BincSaturatesWithoutSpill :
    w5.fault = false ∧ w5.bkt (4 : Value).toNat = maxVal w5.cfg ∧ 0 < (0x7FFFFFFF : BitVec 32).toInt ∧
    Safety.goesOn (exec (.binc 4 0x7FFFFFFF) w5) :=
  ⟨rfl, by decide, by decide, _, rfl⟩

/-- A BINC below zero, and a TESTREM that takes a bucket of value 1 down three times. -/
theorem witness_UnderflowClampsToZero :
    (w5.cfg.legal ∧ w5.fault = false ∧ (4 : Value).toNat < w5.cfg.m.toNat ∧
      (w5.bkt (4 : Value).toNat : Int) + (0xFFFFFFF8 : BitVec 32).toInt < 0) ∧
    (w8.cfg.legal ∧ w8.fault = false ∧ Safety.isMember w8 (indexList w8.cfg 0x0000000800000002) ∧
      (w8.bkt 2 : Int) - ((indexList w8.cfg 0x0000000800000002).count 2 : Int) < 0) := by decide +kernel

/-- A zero bucket and a bucket at MAX. -/
theorem witness_BdecDecrements :
    w5.cfg.legal ∧ w5.fault = false ∧ (0 : Value).toNat < w5.cfg.m.toNat ∧ w5.bkt 0 = 0 ∧ (4 : Value).toNat < w5.cfg.m.toNat ∧
    w5.bkt 4 = 7 := by decide

theorem witness_BresetZeroesBuckets : w5.cfg.legal ∧ w5.fault = false ∧ 4 < w5.cfg.m.toNat ∧ 15 < 8 * nbytes w5.cfg := by decide

/-- `upper mod m = 0`, two rounds a multiple of `m` apart, `m = 1`, and `k > m`. -/
theorem witness_IndexListFollowsDoubleHashing :
    ((config 8 3 2).legal ∧ (BitVec.extractLsb' 32 32 (0x0000000800000002#64)).toNat % (config 8 3 2).m.toNat = 0) ∧
    ((config 10 5 3).legal ∧ 2 < (config 10 5 3).k.toNat ∧
      (BitVec.extractLsb' 32 32 (0x0000000500000007#64)).toNat * (2 - 0) % (config 10 5 3).m.toNat = 0) ∧
    ((config 1 3 4).legal ∧ (config 1 3 4).m.toNat = 1) ∧
    ((config 7 10 4).legal ∧ (config 7 10 4).m.toNat < (config 7 10 4).k.toNat) := by decide

theorem witness_IndexDatapathIs64Bits :
    (config 0xFFFFFFFFFFFFFFFF 0x100000000 8).legal ∧ 0xFFFFFFFF < (config 0xFFFFFFFFFFFFFFFF 0x100000000 8).k.toNat := by
  decide

/-- A member, a digest that is none, and an array of zeros. -/
theorem witness_TestAnswersMembership :
    w16.cfg.legal ∧ w16.fault = false ∧ Safety.isMember w16 (indexList w16.cfg dig3) ∧
    ¬ Safety.isMember w16 (indexList w16.cfg 0) ∧ ∀ j, j < State.reset.cfg.m.toNat → State.reset.bkt j = 0 := by
  decide +kernel

/-- A bucket in the list and one that is not. -/
theorem witness_AddIncrementsAndCounts :
    w16.cfg.legal ∧ w16.fault = false ∧ 5 ∈ indexList w16.cfg dig3 ∧ 6 ∉ indexList w16.cfg dig3 := by decide

theorem witness_TestaddTestsThenIncrements :
    w16.cfg.legal ∧ w16.fault = false ∧ Safety.isMember w16 (indexList w16.cfg dig3) ∧
    ¬ Safety.isMember w16 (indexList w16.cfg 0) := by decide

theorem witness_TestaddIsTestThenAdd : w16.cfg.legal ∧ w16.fault = false := by decide

theorem witness_TestremRemovesAMember :
    w16.cfg.legal ∧ w16.fault = false ∧ Safety.isMember w16 (indexList w16.cfg dig3) ∧
    ¬ Safety.isMember w16 (indexList w16.cfg 0) := by decide

/-- A bucket that occurs three times, and a TESTREM that answers 1. -/
theorem witness_RoundsPerOccurrence :
    w8.cfg.legal ∧ w8.fault = false ∧ 2 ∈ indexList w8.cfg 0x0000000800000002 ∧
    answer (exec (.testrem 0x0000000800000002) w8) = some ⟨.ok, 1⟩ := by decide +kernel

theorem witness_ResetEmptiesTheFilter : w16.cfg.legal ∧ w16.fault = false ∧ 15 < w16.cfg.m.toNat ∧ 63 < 8 * nbytes w16.cfg := by
  decide

/-- No touched bucket saturates; a touched bucket at MAX that occurs once. -/
theorem witness_AddThenTestremRestores :
    (w16.cfg.legal ∧ w16.fault = false ∧
      ∀ j ∈ indexList w16.cfg dig3, w16.bkt j + (indexList w16.cfg dig3).count j ≤ maxVal w16.cfg) ∧
    ((v5 15 2 1 3).cfg.legal ∧ 5 ∈ indexList (config 16 3 4) dig3 ∧ (v5 15 2 1 3).bkt 5 = maxVal (v5 15 2 1 3).cfg ∧
      (indexList (config 16 3 4) dig3).count 5 = 1) := by decide +kernel

/-- An ADD, then CNT and an illegal word. -/
theorem witness_NoFalseNegativeBeforeRemoval :
    w16.cfg.legal ∧ w16.fault = false ∧ ∃ t u, exec (.add dig3) w16 = .next t ∧
      Safety.Runs t [(8, ⟨.ok, 2⟩), (0, ⟨.illegal, 0⟩)] u ∧ decode 8 = .ok .cnt ∧ Safety.neverLowers .cnt = true ∧
      Safety.illegalWord 0 = true :=
  ⟨by decide, rfl, _, _, rfl, .cons rfl rfl (.cons rfl rfl (.nil _)), by decide, rfl, by decide⟩

/-- The example of R106, which meets the hypotheses of both parts. -/
theorem witness_TestremClampsRepeatedBucket :
    w8.cfg.legal ∧ w8.fault = false ∧ Safety.isMember w8 (indexList w8.cfg 0x0000000800000002) ∧
    2 ≤ (indexList w8.cfg 0x0000000800000002).count 2 ∧ w8.bkt 2 < (indexList w8.cfg 0x0000000800000002).count 2 ∧
    w8.cfg.m = 8 ∧ w8.cfg.k = 3 ∧ w8.bkt 2 = 1 := by decide +kernel

/-- An ADD and a TESTREM that returns 1, from COUNT 0. -/
theorem witness_CountIsAddsMinusRemovals :
    State.reset.count = 0 ∧ ∃ u, Safety.Runs State.reset
      [(0x00000003000000050000000000000002, ⟨.ok, 0⟩), (0x00000003000000050000000000000004, ⟨.ok, 1⟩)] u ∧
      Safety.isAdd (0x00000003000000050000000000000002, ⟨.ok, 0⟩) = true ∧
      Safety.isRemoval (0x00000003000000050000000000000004, ⟨.ok, 1⟩) = true :=
  ⟨rfl, _, .cons rfl rfl (.cons rfl rfl (.nil _)), by decide, by decide⟩

theorem witness_AccessorsAnswer : w16.cfg.legal ∧ w16.fault = false ∧ Safety.goesOn (step w16) := ⟨by decide, rfl, _, rfl⟩

/-- The bytes of `(OK, 0x21)`, the answer of RDSTAT after a RANGE fault. -/
theorem witness_TransportBytesAreLittleEndian :
    responseOfBytes [0x00] [0x21, 0, 0, 0, 0, 0, 0, 0] = some ⟨.ok, 0x21⟩ := by decide

theorem witness_OutputPortsShowTheState : (pending w16 ⟨.faulted, 0⟩ ⟨false, true, 8, false⟩).rsp = some ⟨.faulted, 0⟩ := rfl

end Sys2Proof.Tests
end

section
/-! SUPPORT. A machine with a legal configuration never stops (O28): every command, command word and port event has a next
state. The one place where a fault could come from is a bucket access, and every bucket that is accessed lies below `m`. -/

namespace Sys2Proof.Machine

variable {s : State}

/-! ### The bucket commands inside and outside the index space (40_bucket_array.md R79 to R81) -/

/-- BGET on a ready instance, inside the bucket index space. -/
theorem execBget_inside (hl : s.cfg.legal) (hf : s.fault = false) {idx : Value} (h : idx.toNat < s.cfg.m.toNat) :
    execBget idx s = .next (respond .ok (BitVec.ofNat 64 (s.bkt idx.toNat)) s) := by
  unfold execBget indexOf
  rw [whenReady_of_ready _ hl hf, checkIndex_inside _ h, readBucket_ok h, orFault_ok]

/-- BGET on a ready instance, at or above `m`. -/
theorem execBget_outside (hl : s.cfg.legal) (hf : s.fault = false) {idx : Value} (h : s.cfg.m.toNat ≤ idx.toNat) :
    execBget idx s = .next (raiseFault causeRange idx s) := by
  unfold execBget
  rw [whenReady_of_ready _ hl hf, checkIndex_outside _ h]

/-- BINC on a ready instance, at or above `m`. -/
theorem execBinc_outside (hl : s.cfg.legal) (hf : s.fault = false) {idx : Value} (delta : BitVec 32)
    (h : s.cfg.m.toNat ≤ idx.toNat) : execBinc idx delta s = .next (raiseFault causeRange idx s) := by
  unfold execBinc
  rw [whenReady_of_ready _ hl hf, checkIndex_outside _ h]

/-! ### Commands, words and port events go on -/

/-- A faulted instance answers a guarded command with FAULTED, so going on is a question of the ready state only. -/
theorem goesOn_whenReady {b : Host.Outcome State Fault Refusal} (hl : s.cfg.legal)
    (h : s.fault = false → Safety.goesOn (whenReady s b)) : Safety.goesOn (whenReady s b) := by
  cases hf : s.fault with
  | false => exact h hf
  | true => exact ⟨_, whenReady_of_faulted b hl hf⟩

/-- A guarded command whose body is a next state goes on. -/
theorem goesOn_whenReady_next (hl : s.cfg.legal) (t : State) : Safety.goesOn (whenReady s (.next t)) :=
  goesOn_whenReady hl fun hf => ⟨t, whenReady_of_ready _ hl hf⟩

/-- TESTREM goes on, whether it removes or not. -/
theorem execTestrem_goesOn (hl : s.cfg.legal) (dig : Value) : Safety.goesOn (execTestrem dig s) := by
  refine goesOn_whenReady hl fun hf => ?_
  change Safety.goesOn (execTestrem dig s)
  rw [execTestrem_ready hl hf]
  split
  · exact ⟨_, rfl⟩
  · exact ⟨_, rfl⟩

/-- BGET goes on at every index. -/
theorem execBget_goesOn (hl : s.cfg.legal) (idx : Value) : Safety.goesOn (execBget idx s) :=
  goesOn_whenReady hl fun hf =>
    (Nat.lt_or_ge idx.toNat s.cfg.m.toNat).elim
      (fun h => ⟨_, execBget_inside hl hf h⟩) (fun h => ⟨_, execBget_outside hl hf h⟩)

/-- BINC goes on at every index. -/
theorem execBinc_goesOn (hl : s.cfg.legal) (idx : Value) (delta : BitVec 32) : Safety.goesOn (execBinc idx delta s) :=
  goesOn_whenReady hl fun hf =>
    (Nat.lt_or_ge idx.toNat s.cfg.m.toNat).elim
      (fun h => ⟨_, execBinc_inside hl hf delta h⟩) (fun h => ⟨_, execBinc_outside hl hf delta h⟩)

/-- Every command goes on: a membership command because the derived indices lie below `m`, a bucket command because it
checks its index, the others because they access no single bucket. -/
theorem exec_goesOn (hl : s.cfg.legal) (i : Instr) : Safety.goesOn (exec i s) := by
  cases i with
  | test dig => exact goesOn_whenReady hl fun hf => ⟨_, execTest_ready hl hf dig⟩
  | add dig => exact goesOn_whenReady hl fun hf => ⟨_, execAdd_ready hl hf dig⟩
  | testadd dig => exact goesOn_whenReady hl fun hf => ⟨_, execTestadd_ready hl hf dig⟩
  | testrem dig => exact execTestrem_goesOn hl dig
  | bget idx => exact execBget_goesOn hl idx
  | binc idx delta => exact execBinc_goesOn hl idx delta
  | reset => exact goesOn_whenReady_next hl _
  | cap => exact goesOn_whenReady_next hl _
  | krd => exact goesOn_whenReady_next hl _
  | cnt => exact goesOn_whenReady_next hl _
  | breset => exact goesOn_whenReady_next hl _
  | rdstat => exact ⟨_, whenLegal_of_legal _ hl⟩
  | rdfinfo => exact ⟨_, whenLegal_of_legal _ hl⟩

/-- Every word goes on: as its command, or as a rejected word. -/
theorem executeWord_goesOn (hl : s.cfg.legal) (w : CmdWord) : Safety.goesOn (executeWord w s) := by
  unfold executeWord
  split
  · next i _ => exact exec_goesOn hl i
  · exact ⟨_, rejectWord_legal w hl⟩

/-- Every port event goes on: as a hardware reset, as the accepted word, or as a handshake alone. -/
theorem step_goesOn (hl : s.cfg.legal) : Safety.goesOn (step s) := by
  unfold step portEvent
  rw [whenLegal_of_legal _ hl]
  split
  · exact ⟨_, rfl⟩
  · split
    · exact executeWord_goesOn (by rwa [readied_cfg]) _
    · exact ⟨_, rfl⟩

/-- Settles O28: one goal each for commands, command words and port events. -/
theorem legalMachineNeverStops : Obligations.LegalMachineNeverStops :=
  fun _ hl => ⟨exec_goesOn hl, executeWord_goesOn hl, step_goesOn hl⟩

end Sys2Proof.Machine
end

section
/-! SUPPORT. What a command leaves behind where it answers, said once for all commands, and from it who sets FAULT (O16),
who writes COUNT (O29) and how COUNT wraps (O30). -/

namespace Sys2Proof.Machine

variable {s t : State}

/-! ### The outcome of every command -/

/-- The state a command leaves on a ready instance; `exec_ready` ties it to `exec`. -/
def readyNext (s : State) : Instr → State
  | .test dig => respond .ok (boolValue ((indexList s.cfg dig).all (fun j => s.bkt j != 0))) s
  | .add dig => respond .ok 0 (countUp { s with mem := bumpAllMem 1 (indexList s.cfg dig) s })
  | .testadd dig => respond .ok (boolValue ((indexList s.cfg dig).all (fun j => s.bkt j != 0)))
      (countUp { s with mem := bumpAllMem 1 (indexList s.cfg dig) s })
  | .testrem dig =>
    if (indexList s.cfg dig).all (fun j => s.bkt j != 0) = true then
      respond .ok 1 (releaseScratch (countDown
        { stageScratch (indexList s.cfg dig) s with mem := bumpAllMem (-1) (indexList s.cfg dig) s }))
    else respond .ok 0 (releaseScratch (stageScratch (indexList s.cfg dig) s))
  | .reset => respond .ok 0 (clearCount (zeroAll s))
  | .cap => respond .ok s.cfg.m s
  | .krd => respond .ok s.cfg.k s
  | .cnt => respond .ok s.count s
  | .bget idx =>
    if idx.toNat < s.cfg.m.toNat then respond .ok (BitVec.ofNat 64 (s.bkt idx.toNat)) s else raiseFault causeRange idx s
  | .binc idx delta =>
    if idx.toNat < s.cfg.m.toNat then
      respond .ok (BitVec.ofNat 64 (bumped s.cfg (s.bkt idx.toNat) (deltaOf delta)))
        { s with mem := bumpMem (deltaOf delta) idx.toNat s }
    else raiseFault causeRange idx s
  | .breset => respond .ok 0 (zeroAll s)
  | .rdstat => respond .ok (statusWord s) s
  | .rdfinfo => respond .ok s.finfo s

/-- Every command on a ready instance answers, with the state `readyNext` writes out. -/
theorem exec_ready (hl : s.cfg.legal) (hf : s.fault = false) (i : Instr) : exec i s = .next (readyNext s i) := by
  cases i with
  | test dig => exact execTest_ready hl hf dig
  | add dig => exact execAdd_ready hl hf dig
  | testadd dig => exact execTestadd_ready hl hf dig
  | testrem dig => exact (execTestrem_ready hl hf dig).trans (apply_ite _ _ _ _).symm
  | bget idx =>
    by_cases h : idx.toNat < s.cfg.m.toNat
    · exact (execBget_inside hl hf h).trans (congrArg _ (if_pos h).symm)
    · exact (execBget_outside hl hf (Nat.not_lt.mp h)).trans (congrArg _ (if_neg h).symm)
  | binc idx delta =>
    by_cases h : idx.toNat < s.cfg.m.toNat
    · exact (execBinc_inside hl hf delta h).trans (congrArg _ (if_pos h).symm)
    · exact (execBinc_outside hl hf delta (Nat.not_lt.mp h)).trans (congrArg _ (if_neg h).symm)
  | reset | cap | krd | cnt | breset => exact whenReady_of_ready _ hl hf
  | rdstat | rdfinfo => exact whenLegal_of_legal _ hl

/-- A command on a faulted instance does nothing but respond (60_exceptions.md R127). -/
theorem exec_faulted (hl : s.cfg.legal) (hf : s.fault = true) (i : Instr) : ∃ st v, exec i s = .next (respond st v s) := by
  cases i with
  | rdstat | rdfinfo => exact ⟨_, _, whenLegal_of_legal _ hl⟩
  | test | add | testadd | testrem | reset | cap | krd | cnt | bget | binc | breset =>
    exact ⟨_, _, whenReady_of_faulted _ hl hf⟩

/-- Every command is refused under an invalid configuration (60_exceptions.md R131). -/
theorem exec_of_illegal (hl : ¬ s.cfg.legal) (i : Instr) : exec i s = .refused .invalidConfiguration := by
  cases i <;> exact whenLegal_of_illegal _ hl

/-- What a command that answers has done: on a ready instance what `readyNext` says, on a faulted one only respond. -/
theorem exec_cases {i : Instr} (h : exec i s = .next t) :
    s.cfg.legal ∧ ((s.fault = false ∧ t = readyNext s i) ∨ (s.fault = true ∧ ∃ st v, t = respond st v s)) := by
  by_cases hl : s.cfg.legal
  · refine ⟨hl, ?_⟩
    cases hf : s.fault with
    | false => cases (exec_ready hl hf i).symm.trans h; exact .inl ⟨rfl, rfl⟩
    | true =>
      obtain ⟨st, v, e⟩ := exec_faulted hl hf i
      cases e.symm.trans h
      exact .inr ⟨rfl, st, v, rfl⟩
  · cases (exec_of_illegal hl i).symm.trans h

/-- The state after a command that a ready instance answers. -/
theorem eq_readyNext_of_exec {i : Instr} (h : exec i s = .next t) (hf : s.fault = false) : t = readyNext s i := by
  obtain ⟨-, ⟨-, ht⟩ | ⟨hf', -⟩⟩ := exec_cases h
  · exact ht
  · simp [hf] at hf'

/-! ### FAULT -/

/-- On a ready instance FAULT is raised only by the index check of BGET and BINC. -/
theorem readyNext_fault {i : Instr} (hf : s.fault = false) (ht : (readyNext s i).fault = true) :
    ∃ idx, s.cfg.m.toNat ≤ idx.toNat ∧ (i = .bget idx ∨ ∃ delta, i = .binc idx delta) := by
  cases i with
  | bget idx =>
    by_cases h : idx.toNat < s.cfg.m.toNat
    · simp [readyNext, h, hf] at ht
    · exact ⟨idx, Nat.not_lt.mp h, .inl rfl⟩
  | binc idx delta =>
    by_cases h : idx.toNat < s.cfg.m.toNat
    · simp [readyNext, h, hf] at ht
    · exact ⟨idx, Nat.not_lt.mp h, .inr ⟨delta, rfl⟩⟩
  | testrem dig => simp only [readyNext] at ht; split at ht <;> simp [hf] at ht
  | test | add | testadd | reset | cap | krd | cnt | breset | rdstat | rdfinfo => simp [readyNext, hf] at ht

/-- A command that takes the machine from ready to faulted is a BGET or BINC at or above `m`. -/
theorem exec_sets_fault {i : Instr} (h : exec i s = .next t) (hf : s.fault = false) (ht : t.fault = true) :
    ∃ idx, s.cfg.m.toNat ≤ idx.toNat ∧ (i = .bget idx ∨ ∃ delta, i = .binc idx delta) :=
  readyNext_fault hf (eq_readyNext_of_exec h hf ▸ ht)

/-- The bucket operand of a word that decodes to BGET or BINC. -/
theorem bucketOperand_of_decode {w : CmdWord} {i : Instr} {idx : Value} (hd : decode w = .ok i)
    (hi : i = .bget idx ∨ ∃ delta, i = .binc idx delta) : Safety.bucketOperand w = some idx := by
  unfold Safety.bucketOperand
  obtain rfl | ⟨delta, rfl⟩ := hi <;> rw [hd]

/-- A word that takes the machine from ready to faulted carries a bucket operand at or above `m`. -/
theorem executeWord_sets_fault {w : CmdWord} (hl : s.cfg.legal) (h : executeWord w s = .next t) (hf : s.fault = false)
    (ht : t.fault = true) : ∃ idx, Safety.bucketOperand w = some idx ∧ s.cfg.m.toNat ≤ idx.toNat := by
  unfold executeWord at h
  split at h
  · next i hd =>
    obtain ⟨idx, hm, hi⟩ := exec_sets_fault h hf ht
    exact ⟨idx, bucketOperand_of_decode hd hi, hm⟩
  · cases (rejectWord_legal w hl).symm.trans h
    simp [hf] at ht

/-- A port event that takes the machine from ready to faulted executes a word with a bucket operand at or above `m`. -/
theorem step_sets_fault (h : step s = .next t) (hf : s.fault = false) (ht : t.fault = true) :
    ∃ idx, Safety.bucketOperand (currentInput s).cmdData = some idx ∧ s.cfg.m.toNat ≤ idx.toNat := by
  obtain ⟨hl, ⟨-, rfl⟩ | ⟨-, -, hx⟩ | ⟨-, -, rfl⟩⟩ := step_cases h
  · simp at ht
  · rw [← readied_cfg s] at hl ⊢
    exact executeWord_sets_fault hl hx (by rwa [readied_fault]) ht
  · simp [hf] at ht

/-- Settles O16: one goal for commands and one for port events. -/
theorem onlyRangeSetsFault : Obligations.OnlyRangeSetsFault :=
  ⟨fun _ _ _ => exec_sets_fault, fun _ _ => step_sets_fault⟩

/-! ### COUNT -/

/-- On a ready instance only the four writers of 10_state.md R23 change COUNT, TESTREM only with the answer 1. -/
theorem readyNext_count {i : Instr} (hc : (readyNext s i).count ≠ s.count) :
    (∃ dig, i = .add dig) ∨ (∃ dig, i = .testadd dig) ∨ i = .reset ∨
      ∃ dig, i = .testrem dig ∧ (readyNext s i).rsp = some ⟨.ok, 1⟩ := by
  cases i with
  | add dig => exact .inl ⟨dig, rfl⟩
  | testadd dig => exact .inr (.inl ⟨dig, rfl⟩)
  | reset => exact .inr (.inr (.inl rfl))
  | testrem dig =>
    refine .inr (.inr (.inr ⟨dig, rfl, ?_⟩))
    simp only [readyNext] at hc ⊢
    split at hc
    · next hm => rw [if_pos hm, respond_rsp]
    · simp at hc
  | bget | binc => simp only [readyNext] at hc; split at hc <;> simp at hc
  | test | cap | krd | cnt | breset | rdstat | rdfinfo => simp [readyNext] at hc

/-- Settles O29: a faulted instance only responds, and on a ready one the commands are those of `readyNext_count`. -/
theorem countWriters : Obligations.CountWriters := by
  intro s t i h hc
  obtain ⟨-, ⟨-, rfl⟩ | ⟨-, st, v, rfl⟩⟩ := exec_cases h
  · exact readyNext_count hc
  · simp at hc

/-- A TESTREM on a ready instance that answers 1 has taken one from COUNT. -/
theorem readyNext_testrem_count {dig : Value} (hr : (readyNext s (.testrem dig)).rsp = some ⟨.ok, 1⟩) :
    (readyNext s (.testrem dig)).count = s.count - 1 := by
  simp only [readyNext] at hr ⊢
  split at hr
  · next hm => rw [if_pos hm]; simp
  · simp at hr

/-- One down wraps modulo `2^64`: one up again gives the count before (10_state.md R24). -/
theorem toNat_sub_one_add_one (c : Value) : ((c - 1).toNat + 1) % 2 ^ 64 = c.toNat :=
  calc ((c - 1).toNat + 1) % 2 ^ 64
    _ = (c - 1 + 1).toNat := (BitVec.toNat_add (c - 1) 1).symm
    _ = c.toNat := by rw [BitVec.sub_add_cancel]

/-- Settles O30: ADD and TESTADD add one to the 64-bit COUNT, a TESTREM that answers 1 takes one from it. -/
theorem countWraps : Obligations.CountWraps := by
  intro s t dig hf
  refine ⟨fun h => ?_, fun h => ?_, fun h hr => ?_⟩
  · rw [eq_readyNext_of_exec h hf]
    exact BitVec.toNat_add s.count 1
  · rw [eq_readyNext_of_exec h hf]
    exact BitVec.toNat_add s.count 1
  · rw [eq_readyNext_of_exec h hf] at hr ⊢
    rw [readyNext_testrem_count hr]
    exact toNat_sub_one_add_one s.count

end Sys2Proof.Machine
end

section
/-! SUPPORT. Reset: what empty storage reads as, the port event with `rst = 1` (O19) and the invariant of the reset state
(O26). -/

namespace Sys2Proof.Machine

variable {s : State}

/-- Every bit of an empty storage is 0. -/
@[simp] theorem memBit_nil (p : Nat) : memBit [] p = false := by simp [memBit]

/-- Every bucket of an empty storage is 0. -/
theorem bkt_of_mem_nil (h : s.mem = []) (j : Nat) : s.bkt j = 0 :=
  memField_eq_of_bits (Nat.two_pow_pos _) fun t _ => by simp [h]

/-- No command is accepted while `rst` is 1 (70_reset_and_hazards.md R139). -/
theorem cmdReady_of_rst (h : (currentInput s).rst = true) : cmdReady s = false := by simp [cmdReady, h]

/-- A port event with `rst = 1` is a hardware reset and nothing else. -/
theorem step_of_rst (hl : s.cfg.legal) (h : (currentInput s).rst = true) :
    step s = .next (hardReset (takeInput s)) := by
  unfold step portEvent
  rw [whenLegal_of_legal _ hl, if_pos h]

/-- Settles O19: the fields of the state after hardware reset, read off one by one. -/
theorem hardwareResetValues : Obligations.HardwareResetValues := by
  intro s hl hrst
  have hready := cmdReady_of_rst hrst
  refine ⟨hready, by simp [accepts, hready], hardReset (takeInput s), step_of_rst hl hrst, ?_⟩
  exact ⟨bkt_of_mem_nil rfl, memBit_nil, rfl, rfl, rfl, rfl, rfl, rfl, rfl, rfl⟩

/-- The reset state of every legal configuration meets the invariant. -/
theorem inv_resetWith {c : Config} (hl : c.legal) : Safety.Inv (State.resetWith c) where
  legal := hl
  memCanonical := wf_nil
  memInside := by simp
  paddingZero := by simp
  faultCoherent := ⟨fun _ => ⟨rfl, rfl⟩, nofun⟩
  scratchLength := by simp
  pendingSound := by simp
  deliveredSound := by simp

/-- Settles O26: `State.reset` is the reset state of the running example, which is legal. -/
theorem invAtReset : Obligations.InvAtReset := ⟨fun _ => inv_resetWith, inv_resetWith (by decide)⟩

end Sys2Proof.Machine
end

section
/-! SUPPORT. What a command and a command word leave behind on an instance that exists, ready or faulted, as one equation
each; and that the pending response plays no part in it. -/

namespace Sys2Proof.Machine

variable {s : State}

/-- The state a command leaves on a faulted instance (60_exceptions.md R127); `exec_faultedNext` ties it to `exec`. -/
def faultedNext (s : State) : Instr → State
  | .rdstat => respond .ok (statusWord s) s
  | .rdfinfo => respond .ok s.finfo s
  | _ => respond .faulted 0 s

/-- Every command on a faulted instance answers, with the state `faultedNext` writes out. -/
theorem exec_faultedNext (hl : s.cfg.legal) (hf : s.fault = true) (i : Instr) : exec i s = .next (faultedNext s i) := by
  cases i with
  | rdstat | rdfinfo => exact whenLegal_of_legal _ hl
  | test | add | testadd | testrem | reset | cap | krd | cnt | bget | binc | breset => exact whenReady_of_faulted _ hl hf

/-- The state a command leaves on an instance that exists; `exec_legal` ties it to `exec`. -/
def instrNext (s : State) (i : Instr) : State := if s.fault = true then faultedNext s i else readyNext s i

theorem instrNext_faulted (hf : s.fault = true) (i : Instr) : instrNext s i = faultedNext s i := if_pos hf

theorem instrNext_ready (hf : s.fault = false) (i : Instr) : instrNext s i = readyNext s i := if_neg (by simp [hf])

/-- Every command on an instance that exists answers, with the state `instrNext` writes out. -/
theorem exec_legal (hl : s.cfg.legal) (i : Instr) : exec i s = .next (instrNext s i) := by
  cases hf : s.fault with
  | true => rw [instrNext_faulted hf, exec_faultedNext hl hf]
  | false => rw [instrNext_ready hf, exec_ready hl hf]

/-- The state a command word leaves on an instance that exists; `executeWord_legal` ties it to `executeWord`. -/
def wordNext (s : State) (w : CmdWord) : State :=
  match decode w with
  | .ok i => instrNext s i
  | .error _ => respond (if s.fault && !statusReadOp (opOf w) then .faulted else .illegal) 0 s

/-- Every word on an instance that exists answers, with the state `wordNext` writes out. -/
theorem executeWord_legal (hl : s.cfg.legal) (w : CmdWord) : executeWord w s = .next (wordNext s w) := by
  unfold executeWord wordNext
  cases decode w with
  | ok i => exact exec_legal hl i
  | error e => exact rejectWord_legal w hl

/-- The pending response plays no part in what a ready instance does. -/
theorem readyNext_respond (st : Status) (v : Value) (i : Instr) : readyNext (respond st v s) i = readyNext s i := by
  have hmem (d : Int) (l : List Nat) : bumpAllMem d l (respond st v s) = bumpAllMem d l s :=
    bumpAllMem_congr d l _ _ rfl rfl
  cases i with
  | add | testadd | testrem => simp only [readyNext, respond_cfg, hmem]; rfl
  | test | reset | cap | krd | cnt | bget | binc | breset | rdstat | rdfinfo => rfl

/-- Nor in what a faulted one does. -/
theorem faultedNext_respond (st : Status) (v : Value) (i : Instr) : faultedNext (respond st v s) i = faultedNext s i := by
  cases i <;> rfl

/-- The pending response plays no part in a command: another in its place changes nothing. -/
theorem exec_respond (st : Status) (v : Value) (i : Instr) : exec i (respond st v s) = exec i s := by
  by_cases hl : s.cfg.legal
  · rw [exec_legal (s := respond st v s) hl, exec_legal hl]
    rw [instrNext, instrNext, readyNext_respond, faultedNext_respond, respond_fault]
  · rw [exec_of_illegal (s := respond st v s) hl, exec_of_illegal hl]

end Sys2Proof.Machine
end

section
/-! SUPPORT. The invariant: each operation a step is made of keeps it, so every command, word and port event does (O27). -/

namespace Sys2Proof.Machine

variable {s : State}

/-! ### The operations keep the invariant -/

/-- Presenting a sound response. -/
theorem inv_respond (h : Safety.Inv s) {st : Status} {v : Value} (hr : Safety.responseSound ⟨st, v⟩) :
    Safety.Inv (respond st v s) :=
  { h with pendingSound := fun _ e => Option.some.inj e ▸ hr }

/-- An OK response is sound whatever its value. -/
theorem inv_respond_ok (h : Safety.Inv s) (v : Value) : Safety.Inv (respond .ok v s) :=
  inv_respond h fun hne => absurd rfl hne

/-- A response with value 0 is sound whatever its status. -/
theorem inv_respond_zero (h : Safety.Inv s) (st : Status) : Safety.Inv (respond st 0 s) := inv_respond h fun _ => rfl

/-- Entering the fault state with an index at or above `m`. -/
theorem inv_raiseFault (h : Safety.Inv s) {idx : Value} (hm : s.cfg.m.toNat ≤ idx.toNat) :
    Safety.Inv (raiseFault causeRange idx s) :=
  { h with
    faultCoherent := ⟨nofun, fun _ => ⟨rfl, hm⟩⟩
    pendingSound := fun _ e => Option.some.inj e ▸ fun _ => rfl }

/-- COUNT is free. -/
theorem inv_withCount (h : Safety.Inv s) (c : Value) : Safety.Inv { s with count := c } := { h with }

/-- Rounds on buckets below `m`. -/
theorem inv_bumpAllMem (h : Safety.Inv s) (d : Int) {l : List Nat} (hl : ∀ j ∈ l, j < s.cfg.m.toNat) :
    Safety.Inv { s with mem := bumpAllMem d l s } :=
  { h with
    memCanonical := wf_bumpAllMem d l s h.memCanonical
    memInside := inside_bumpAllMem d l s hl h.memInside
    paddingZero := fun p hp => (padding_bumpAllMem d l s hl p hp).trans (h.paddingZero p hp) }

/-- One round on a bucket below `m`. -/
theorem inv_bumpMem (h : Safety.Inv s) (d : Int) {j : Nat} (hj : j < s.cfg.m.toNat) :
    Safety.Inv { s with mem := bumpMem d j s } :=
  inv_bumpAllMem h d (l := [j]) fun _ hi => List.mem_singleton.mp hi ▸ hj

/-- A storage with no byte past its end is empty once zeroed. -/
theorem zeroAll_mem_nil (h : ∀ c ∈ s.mem, c.1 < nbytes s.cfg) : (zeroAll s).mem = [] :=
  List.filter_eq_nil_iff.mpr fun c hc => by simpa using h c hc

/-- Zeroing the storage. -/
theorem inv_zeroAll (h : Safety.Inv s) : Safety.Inv (zeroAll s) :=
  have hnil := zeroAll_mem_nil h.memInside
  { h with
    memCanonical := hnil ▸ wf_nil
    memInside := by rw [hnil]; nofun
    paddingZero := by rw [hnil]; exact fun p _ => memBit_nil p }

/-- Staging the `k` indices of a digest. -/
theorem inv_stageScratch (h : Safety.Inv s) (dig : Value) : Safety.Inv (stageScratch (indexList s.cfg dig) s) :=
  { h with scratchLength := by simp [indexList_length] }

/-- Making the `k` scratch entries unspecified. -/
theorem inv_releaseScratch (h : Safety.Inv s) : Safety.Inv (releaseScratch s) := { h with scratchLength := by simp }

/-- Hardware reset. -/
theorem inv_hardReset (h : Safety.Inv s) : Safety.Inv (hardReset s) :=
  inv_releaseScratch { inv_resetWith h.legal with deliveredSound := h.deliveredSound }

/-- Taking the inputs of a port event. -/
theorem inv_takeInput (h : Safety.Inv s) : Safety.Inv (takeInput s) := { h with }

/-- Delivering the pending response, if the host is ready for it. -/
theorem inv_deliver (h : Safety.Inv s) (ready : Bool) : Safety.Inv (deliver ready s) := by
  cases ready with
  | false => exact h
  | true =>
    cases hr : s.rsp with
    | none => rwa [deliver_of_rsp_none _ hr]
    | some r =>
      rw [deliver_of_rsp_some hr]
      refine { h with pendingSound := nofun, deliveredSound := fun r' hr' => ?_ }
      obtain hr' | hr' := List.mem_append.mp hr'
      · exact h.deliveredSound r' hr'
      · exact List.mem_singleton.mp hr' ▸ h.pendingSound r hr

/-- The handshake of a port event. -/
theorem inv_readied (h : Safety.Inv s) : Safety.Inv (readied s) := inv_deliver (inv_takeInput h) _

/-! ### Commands, words and port events keep the invariant -/

/-- The rounds of ADD and TESTADD, with COUNT up. -/
theorem inv_countUp_bumpAllMem (h : Safety.Inv s) (dig : Value) :
    Safety.Inv (countUp { s with mem := bumpAllMem 1 (indexList s.cfg dig) s }) :=
  inv_withCount (inv_bumpAllMem h 1 (indexList_lt h.legal.2.1.1 dig)) _

/-- A command on a ready instance. -/
theorem inv_readyNext (h : Safety.Inv s) (i : Instr) : Safety.Inv (readyNext s i) := by
  cases i with
  | test | cap | krd | cnt | rdstat | rdfinfo => exact inv_respond_ok h _
  | add dig | testadd dig => exact inv_respond_ok (inv_countUp_bumpAllMem h dig) _
  | testrem dig =>
    have hstaged := inv_stageScratch h dig
    simp only [readyNext]
    split
    · rw [← bumpAllMem_congr (-1) _ (stageScratch _ s) s rfl rfl]
      exact inv_respond_ok (inv_releaseScratch
        (inv_withCount (inv_bumpAllMem hstaged (-1) (indexList_lt h.legal.2.1.1 dig)) _)) _
    · exact inv_respond_ok (inv_releaseScratch hstaged) _
  | reset => exact inv_respond_ok (inv_withCount (inv_zeroAll h) 0) _
  | breset => exact inv_respond_ok (inv_zeroAll h) _
  | bget idx =>
    simp only [readyNext]
    split
    · exact inv_respond_ok h _
    · next hm => exact inv_raiseFault h (Nat.not_lt.mp hm)
  | binc idx delta =>
    simp only [readyNext]
    split
    · next hm => exact inv_respond_ok (inv_bumpMem h _ hm) _
    · next hm => exact inv_raiseFault h (Nat.not_lt.mp hm)

/-- A command on a faulted instance. -/
theorem inv_faultedNext (h : Safety.Inv s) (i : Instr) : Safety.Inv (faultedNext s i) := by
  cases i with
  | rdstat | rdfinfo => exact inv_respond_ok h _
  | test | add | testadd | testrem | reset | cap | krd | cnt | bget | binc | breset => exact inv_respond_zero h _

/-- A command, ready or faulted. -/
theorem inv_instrNext (h : Safety.Inv s) (i : Instr) : Safety.Inv (instrNext s i) := by
  unfold instrNext
  split
  · exact inv_faultedNext h i
  · exact inv_readyNext h i

/-- A command word, also one that is no command. -/
theorem inv_wordNext (h : Safety.Inv s) (w : CmdWord) : Safety.Inv (wordNext s w) := by
  unfold wordNext
  split
  · exact inv_instrNext h _
  · exact inv_respond_zero h _

/-- Settles O27: a port event is a hardware reset, an accepted word on the readied state, or the handshake alone. -/
theorem stepKeepsInv : Obligations.StepKeepsInv := by
  intro s t h hstep
  obtain ⟨-, ⟨-, rfl⟩ | ⟨-, -, hx⟩ | ⟨-, -, rfl⟩⟩ := step_cases hstep
  · exact inv_hardReset (inv_takeInput h)
  · have hr := inv_readied h
    cases (executeWord_legal hr.legal _).symm.trans hx
    exact inv_wordNext hr _
  · exact inv_readied h

end Sys2Proof.Machine
end

section
/-! SUPPORT. What a bucket write stores (O34), what a bucket is made of (O36) and what `ZeroAll` clears (O37). -/

namespace Sys2Proof.Machine

variable {s : State}

/-! ### A bucket write (20_memory.md R40, R44) -/

/-- A write of a value in `[0, MAX]` to a bucket is the round that adds what is missing, so it has the rounds' frame. -/
theorem putBits_eq_bumpAllMem (j : Nat) {v : Nat} (hv : v ≤ maxVal s.cfg) :
    putBits s.mem (j * s.cfg.b.toNat) v s.cfg.b.toNat = bumpAllMem ((v : Int) - s.bkt j) [j] s := by
  have hbumped : bumped s.cfg (s.bkt j) ((v : Int) - s.bkt j) = v := by unfold bumped clamp; omega
  rw [bumpAllMem, bumpAllMem, bumpMem, hbumped]

/-- Settles O34: the written bits by `memBit_putBits`, the frame by that of the rounds. -/
theorem bucketWriteReadsBack : Obligations.BucketWriteReadsBack := by
  intro s j v hj hv
  refine ⟨_, writeBucket_ok v hj, rfl, ?_, fun n hn => ?_, ?_⟩
  · rw [bkt_putBits s j v j hv, if_pos rfl]
  · rw [memBit_putBits, if_pos (by omega), Nat.add_sub_cancel_left]
  · exact storesOnly_bumpAllMem _ [j] s _ rfl (putBits_eq_bumpAllMem j hv)

/-! ### What a bucket is (20_memory.md R39) -/

/-- A field is the sum of its storage bits weighted by `2^t`. -/
theorem memField_eq_sum (m : List Host.Cell) (p n : Nat) :
    memField m p n = ∑ t ∈ Finset.range n, (memBit m (p + t)).toNat * 2 ^ t := by
  induction n with
  | zero => rfl
  | succ n ih => rw [memField, ih, Finset.sum_range_succ]

/-- A bucket holds at most MAX (40_bucket_array.md R87). -/
theorem bkt_le_maxVal (s : State) (j : Nat) : s.bkt j ≤ maxVal s.cfg :=
  Nat.le_sub_one_of_lt (memField_lt _ _ _)

/-- Settles O36: at most eight consecutive bits touch at most two bytes. -/
theorem bucketReadIsItsBits : Obligations.BucketReadIsItsBits := by
  intro s j hl hj
  obtain ⟨-, -, -, -, hb⟩ := hl
  exact ⟨readBucket_ok hj, bkt_le_maxVal s j, memField_eq_sum _ _ _, by omega⟩

/-! ### `ZeroAll` (20_memory.md R41) -/

/-- Every bucket below `m` is 0 once the storage is zeroed (20_memory.md R41). -/
theorem bkt_zeroAll {j : Nat} (hj : j < s.cfg.m.toNat) : (zeroAll s).bkt j = 0 := by
  unfold State.bkt
  refine memField_eq_of_bits (Nat.two_pow_pos _) fun t ht => ?_
  rw [zeroAll_cfg] at ht ⊢
  have hbyte := bucket_byte_lt hj ht
  rw [Nat.zero_testBit]
  exact memBit_zeroAll s _ (by omega)

/-- Settles O37: every byte of the storage reads 0, so every bucket and padding bit does; BRESET and RESET store nothing
else. -/
theorem zeroAllClearsStorage : Obligations.ZeroAllClearsStorage := by
  intro s
  refine ⟨rfl, fun a ha => ?_, fun j hj => bkt_zeroAll hj, fun p _ hp => memBit_zeroAll s p hp, fun hl hf => ?_⟩
  · rw [zeroAll_mem, memGet_memZeroBelow, if_pos ha]
  · exact ⟨⟨_, exec_ready hl hf .breset, rfl⟩, ⟨_, exec_ready hl hf .reset, rfl⟩⟩

end Sys2Proof.Machine
end

section
/-! SUPPORT. The storage layout cannot be observed (O32): two states with the same architectural state answer alike and go
on agreeing, operation by operation; and the reading commands have no side effect (O33). -/

namespace Sys2Proof.Machine

variable {s s' : State}

/-! ### The operations keep architectural agreement -/

/-- Two states agree after a command: architecturally and in the response. -/
abbrev AnsweredAlike (t t' : State) : Prop := Safety.SameArch t t' ∧ t'.rsp = t.rsp

/-- Presenting the same response. -/
theorem alike_respond (h : Safety.SameArch s s') (st : Status) {v v' : Value} (hv : v' = v) :
    AnsweredAlike (respond st v s) (respond st v' s') :=
  ⟨⟨h.cfg, h.bkt, h.count, h.fault, h.cause, h.finfo⟩, by rw [hv]; rfl⟩

/-- Entering the fault state at the same index. -/
theorem alike_raiseFault (h : Safety.SameArch s s') (idx : Value) :
    AnsweredAlike (raiseFault causeRange idx s) (raiseFault causeRange idx s') :=
  ⟨⟨h.cfg, h.bkt, h.count, rfl, rfl, rfl⟩, rfl⟩

/-- Writing the same COUNT. -/
theorem sameArch_withCount (h : Safety.SameArch s s') {c c' : Value} (hc : c = c') :
    Safety.SameArch { s with count := c } { s' with count := c' } :=
  ⟨h.cfg, h.bkt, hc, h.fault, h.cause, h.finfo⟩

/-- One round on a bucket below `m`: what it writes depends on the bucket's value, not on how it is stored. -/
theorem sameArch_bumpMem (h : Safety.SameArch s s') (d : Int) {j : Nat} (hj : j < s.cfg.m.toNat) :
    Safety.SameArch { s with mem := bumpMem d j s } { s' with mem := bumpMem d j s' } where
  cfg := h.cfg
  bkt i hi := by rw [bkt_bumpMem, bkt_bumpMem, h.bkt j hj, h.bkt i hi, h.cfg]
  count := h.count
  fault := h.fault
  cause := h.cause
  finfo := h.finfo

/-- The rounds of a list of buckets below `m`. -/
theorem sameArch_bumpAllMem (d : Int) (l : List Nat) (h : Safety.SameArch s s') (hl : ∀ j ∈ l, j < s.cfg.m.toNat) :
    Safety.SameArch { s with mem := bumpAllMem d l s } { s' with mem := bumpAllMem d l s' } := by
  induction l generalizing s s' with
  | nil => exact h
  | cons j js ih => exact ih (sameArch_bumpMem h d (hl j (by simp))) fun i hi => hl i (by simp [hi])

/-- Zeroing the storage. -/
theorem sameArch_zeroAll (h : Safety.SameArch s s') : Safety.SameArch (zeroAll s) (zeroAll s') where
  cfg := h.cfg
  bkt j hj := by rw [bkt_zeroAll (s := s) hj, bkt_zeroAll (h.cfg ▸ hj)]
  count := h.count
  fault := h.fault
  cause := h.cause
  finfo := h.finfo

/-- The scratch buffer plays no part: states agree whatever is staged or left in it (10_state.md R30). -/
theorem sameArch_withScratch (h : Safety.SameArch s s') (l l' : List Value) (e e' : Nat) :
    Safety.SameArch { s with scratch := l, scratchEra := e } { s' with scratch := l', scratchEra := e' } :=
  ⟨h.cfg, h.bkt, h.count, h.fault, h.cause, h.finfo⟩

/-! ### Commands and words are answered alike -/

/-- The membership test reads buckets below `m` only. -/
theorem all_bkt_eq (h : Safety.SameArch s s') {l : List Nat} (hl : ∀ j ∈ l, j < s.cfg.m.toNat) :
    l.all (fun j => s'.bkt j != 0) = l.all (fun j => s.bkt j != 0) := by
  rw [Bool.eq_iff_iff, List.all_eq_true, List.all_eq_true]
  exact forall₂_congr fun j hj => by rw [h.bkt j (hl j hj)]

/-- Agreeing states answer every command alike while ready. -/
theorem alike_readyNext (hl : s.cfg.legal) (h : Safety.SameArch s s') (i : Instr) :
    AnsweredAlike (readyNext s i) (readyNext s' i) := by
  have hlt (dig : Value) : ∀ j ∈ indexList s.cfg dig, j < s.cfg.m.toNat := indexList_lt hl.2.1.1 dig
  have hidx (dig : Value) : indexList s'.cfg dig = indexList s.cfg dig := by rw [h.cfg]
  have hup : s.count + 1 = s'.count + 1 := by rw [h.count]
  have hdown : s.count - 1 = s'.count - 1 := by rw [h.count]
  have hm : s'.cfg.m = s.cfg.m := by rw [h.cfg]
  cases i with
  | test dig =>
    simp only [readyNext, hidx, all_bkt_eq h (hlt dig)]
    exact alike_respond h _ rfl
  | add dig =>
    simp only [readyNext, hidx]
    exact alike_respond (sameArch_withCount (sameArch_bumpAllMem 1 _ h (hlt dig)) hup) _ rfl
  | testadd dig =>
    simp only [readyNext, hidx, all_bkt_eq h (hlt dig)]
    exact alike_respond (sameArch_withCount (sameArch_bumpAllMem 1 _ h (hlt dig)) hup) _ rfl
  | testrem dig =>
    simp only [readyNext, hidx, all_bkt_eq h (hlt dig)]
    split
    · exact alike_respond (sameArch_withScratch
        (sameArch_withCount (sameArch_bumpAllMem (-1) _ h (hlt dig)) hdown) _ _ _ _) _ rfl
    · exact alike_respond (sameArch_withScratch h _ _ _ _) _ rfl
  | reset => exact alike_respond (sameArch_withCount (sameArch_zeroAll h) rfl) _ rfl
  | cap => exact alike_respond h _ hm
  | krd => exact alike_respond h _ (by rw [h.cfg])
  | cnt => exact alike_respond h _ h.count.symm
  | bget idx =>
    simp only [readyNext, hm]
    split
    · next hin => exact alike_respond h _ (by rw [h.bkt _ hin])
    · exact alike_raiseFault h idx
  | binc idx delta =>
    simp only [readyNext, hm]
    split
    · next hin => exact alike_respond (sameArch_bumpMem h _ hin) _ (by rw [h.bkt _ hin, h.cfg])
    · exact alike_raiseFault h idx
  | breset => exact alike_respond (sameArch_zeroAll h) _ rfl
  | rdstat => exact alike_respond h _ (by rw [statusWord, statusWord, h.cause, h.fault])
  | rdfinfo => exact alike_respond h _ h.finfo.symm

/-- Agreeing states answer every command alike while faulted. -/
theorem alike_faultedNext (h : Safety.SameArch s s') (i : Instr) : AnsweredAlike (faultedNext s i) (faultedNext s' i) := by
  cases i with
  | rdstat => exact alike_respond h _ (by rw [statusWord, statusWord, h.cause, h.fault])
  | rdfinfo => exact alike_respond h _ h.finfo.symm
  | test | add | testadd | testrem | reset | cap | krd | cnt | bget | binc | breset => exact alike_respond h _ rfl

/-- Agreeing states answer every command alike. -/
theorem alike_instrNext (hl : s.cfg.legal) (h : Safety.SameArch s s') (i : Instr) :
    AnsweredAlike (instrNext s i) (instrNext s' i) := by
  unfold instrNext
  rw [← h.fault]
  split
  · exact alike_faultedNext h i
  · exact alike_readyNext hl h i

/-- Agreeing states answer every word alike, also one that is no command. -/
theorem alike_wordNext (hl : s.cfg.legal) (h : Safety.SameArch s s') (w : CmdWord) :
    AnsweredAlike (wordNext s w) (wordNext s' w) := by
  unfold wordNext
  split
  · exact alike_instrNext hl h _
  · rw [← h.fault]
    exact alike_respond h _ rfl

/-- Settles O32: both states answer the word, and their answers are alike. -/
theorem layoutNotObservable : Obligations.LayoutNotObservable := by
  intro s s' t w hl h hx
  cases (executeWord_legal hl w).symm.trans hx
  exact ⟨wordNext s' w, executeWord_legal (h.cfg ▸ hl) w, alike_wordNext hl h w⟩

/-! ### The reading commands (20_memory.md R49) -/

/-- The reading commands of 20_memory.md R49, in the form in which O33 lists them. -/
abbrev Reading (i : Instr) : Prop :=
  (∃ idx, i = .bget idx) ∨ (∃ dig, i = .test dig) ∨ i = .cap ∨ i = .krd ∨ i = .cnt ∨ i = .rdstat ∨ i = .rdfinfo

/-- A reading command does nothing but respond, with a status other than RANGE, unless it is a BGET at or above `m`. -/
theorem readyNext_of_reading {i : Instr} (hi : Reading i) :
    (∃ st v, st ≠ .range ∧ readyNext s i = respond st v s) ∨
      ∃ idx, i = .bget idx ∧ s.cfg.m.toNat ≤ idx.toNat ∧ readyNext s i = raiseFault causeRange idx s := by
  obtain ⟨idx, rfl⟩ | ⟨dig, rfl⟩ | rfl | rfl | rfl | rfl | rfl := hi
  · by_cases h : idx.toNat < s.cfg.m.toNat
    · exact .inl ⟨_, _, by decide, if_pos h⟩
    · exact .inr ⟨idx, rfl, Nat.not_lt.mp h, if_neg h⟩
  all_goals exact .inl ⟨.ok, _, by decide, rfl⟩

/-- A command on a faulted instance does nothing but respond, with a status other than RANGE. -/
theorem faultedNext_eq_respond (s : State) (i : Instr) : ∃ st v, st ≠ .range ∧ faultedNext s i = respond st v s := by
  cases i with
  | rdstat | rdfinfo => exact ⟨.ok, _, by decide, rfl⟩
  | test | add | testadd | testrem | reset | cap | krd | cnt | bget | binc | breset => exact ⟨.faulted, _, by decide, rfl⟩

/-- What a reading command that answers has done, ready or faulted. -/
theorem exec_of_reading {t : State} {i : Instr} (hi : Reading i) (h : exec i s = .next t) :
    (∃ st v, st ≠ .range ∧ t = respond st v s) ∨
      ∃ idx, i = .bget idx ∧ s.cfg.m.toNat ≤ idx.toNat ∧ t = raiseFault causeRange idx s := by
  obtain ⟨hl, -⟩ := exec_cases h
  cases (exec_legal hl i).symm.trans h
  cases hf : s.fault with
  | true => rw [instrNext_faulted hf]; exact .inl (faultedNext_eq_respond s i)
  | false => rw [instrNext_ready hf]; exact readyNext_of_reading hi

/-- Settles O33: a reading command only responds, and the response it finds plays no part when it is repeated. -/
theorem readsHaveNoSideEffect : Obligations.ReadsHaveNoSideEffect := by
  intro s t i hi h
  obtain ⟨st, v, hst, rfl⟩ | ⟨idx, rfl, hm, rfl⟩ := exec_of_reading hi h
  · exact ⟨fun _ => ⟨rfl, (exec_respond st v i).trans h⟩, fun hr => by simp [hst] at hr⟩
  · exact ⟨fun hr => absurd rfl hr, fun _ => ⟨idx, rfl, hm⟩⟩

end Sys2Proof.Machine
end

section
/-! SUPPORT. The byte transport is little-endian and its responses read back (O60). -/

namespace Sys2Proof.Machine

/-- Byte `n` of a word's bytes is its bits `8n + 7 : 8n` (20_memory.md R45). -/
theorem bytesOfNat_toNat_getElem? {len w n : Nat} (x : BitVec w) (h : n < len) :
    (bytesOfNat len x.toNat)[n]? = some (x.extractLsb' (8 * n) 8) := by
  rw [bytesOfNat_getElem? _ h, show 256 = 2 ^ 8 from rfl, ← Nat.pow_mul, ← Nat.shiftRight_eq_div_pow]
  rfl

/-- The status byte is the code with four high bits 0 (log 12). -/
theorem statusBytes_eq (r : Response) : statusBytes r = [(statusCode r.status).setWidth 8] := by
  rw [statusBytes, bytesOfNat, bytesOfNat, BitVec.ofNat_toNat]

/-- A word reads back from its bytes. -/
theorem wordOfBytes_bytesOfNat_toNat {w len : Nat} (x : BitVec w) (h : 2 ^ w ≤ 256 ^ len) :
    wordOfBytes (bytesOfNat len x.toNat) = x.toNat :=
  wordOfBytes_bytesOfNat (Nat.lt_of_lt_of_le x.isLt h)

/-- The bytes of a response's two words give the response. -/
theorem responseOfBytes_bytes (r : Response) : responseOfBytes (statusBytes r) (valueBytes r) = some r := by
  unfold responseOfBytes statusBytes valueBytes
  rw [wordOfBytes_bytesOfNat_toNat _ (by decide), wordOfBytes_bytesOfNat_toNat _ (by decide),
    if_pos ⟨bytesOfNat_length _ _, bytesOfNat_length _ _, (statusCode r.status).isLt⟩]
  simp

/-- Bytes that give a response are the bytes of its two words. -/
theorem bytes_of_responseOfBytes {status value : List Byte} {r : Response} (h : responseOfBytes status value = some r) :
    statusBytes r = status ∧ valueBytes r = value := by
  unfold responseOfBytes at h
  split at h
  · next hw =>
    obtain ⟨hs, hv, hlt⟩ := hw
    obtain ⟨st, hst, rfl⟩ := Option.map_eq_some_iff.mp h
    have hvlt : wordOfBytes value < 2 ^ 64 := Nat.lt_of_lt_of_eq (wordOfBytes_lt value) (by rw [hv]; norm_num)
    constructor
    · unfold statusBytes
      rw [statusCode_of_statusOfCode hst, BitVec.toNat_ofNat, Nat.mod_eq_of_lt hlt, ← hs, bytesOfNat_wordOfBytes]
    · unfold valueBytes
      rw [BitVec.toNat_ofNat, Nat.mod_eq_of_lt hvlt, ← hv, bytesOfNat_wordOfBytes]
  · cases h

/-- Settles O60: commands and values are bytes of a word; responses read back both ways. -/
theorem transportBytesAreLittleEndian : Obligations.TransportBytesAreLittleEndian := by
  refine ⟨fun i => ⟨bytesOfNat_length _ _, fun n hn => bytesOfNat_toNat_getElem? _ hn⟩, fun r => ?_,
    fun _ _ _ => bytes_of_responseOfBytes⟩
  exact ⟨bytesOfNat_length _ _, fun n hn => bytesOfNat_toNat_getElem? _ hn, statusBytes_eq r, responseOfBytes_bytes r⟩

end Sys2Proof.Machine
end

section
/-! SUPPORT. A command and its word: a word decodes exactly when its opcode is listed and its reserved bits are 0, and it
is then the encoding of its command (O1, O2, O3, O5). -/

namespace Sys2Proof

open Sys2Proof.Machine

/-! ### The fixed bits of a format (30_encoding.md R56, R61) -/

/-- How many low bits a format fixes: the opcode and the reserved bits above it; `Format.mask_getLsbD` ties it to the
mask. -/
def Format.fixedBits : Format → Nat
  | .n => 128
  | .d | .i => 64
  | .id => 32

/-- A mask keeps the fixed bits of its format. -/
theorem Format.mask_getLsbD (f : Format) {n : Nat} (h : n < 128) : f.mask.getLsbD n = decide (n < f.fixedBits) := by
  have hmask : f.mask = (BitVec.allOnes f.fixedBits).setWidth 128 := by cases f <;> decide
  rw [hmask, BitVec.getLsbD_setWidth, BitVec.getLsbD_allOnes]
  simp [h]

/-- A bit of a row's match word: the opcode in bits 7:0, 0 above. -/
theorem Opcode.matchBits_getLsbD (o : Opcode) (n : Nat) : o.matchBits.getLsbD n = o.code.getLsbD n := by
  unfold Opcode.matchBits
  by_cases h : n < 128
  · simp [h]
  · simp [BitVec.getLsbD_of_ge _ _ (Nat.le_of_not_lt h), BitVec.getLsbD_of_ge o.code n (by omega)]

/-- A bit of the opcode byte. -/
theorem opOf_getLsbD (w : CmdWord) {n : Nat} (h : n < 8) : (opOf w).getLsbD n = w.getLsbD n := by
  simp [opOf, h]

/-- A bit of the field in bits 127:64. -/
theorem operand64_getLsbD (w : CmdWord) {n : Nat} (h : n < 64) : (operand64 w).getLsbD n = w.getLsbD (64 + n) := by
  simp [operand64, h]

/-- A bit of the field in bits 63:32. -/
theorem operandDelta_getLsbD (w : CmdWord) {n : Nat} (h : n < 32) : (operandDelta w).getLsbD n = w.getLsbD (32 + n) := by
  simp [operandDelta, h]

/-- Every reserved bit of a format is 0 in a word (30_encoding.md R56, R64). -/
def Format.ReservedZero (f : Format) (w : CmdWord) : Prop := ∀ n, 8 ≤ n → n < f.fixedBits → w.getLsbD n = false

/-- The reserved bits of a format as one field of the word. -/
theorem Format.reservedZero_iff (f : Format) (w : CmdWord) :
    f.ReservedZero w ↔ w.extractLsb' 8 (f.fixedBits - 8) = 0 := by
  constructor
  · intro h
    apply BitVec.eq_of_getLsbD_eq
    intro n hn
    simp [BitVec.getLsbD_extractLsb', h (8 + n) (by omega) (by omega)]
  · intro h n h8 hn
    have hbit := congrArg (fun x => x.getLsbD (n - 8)) h
    simpa [BitVec.getLsbD_extractLsb', show n - 8 < f.fixedBits - 8 by omega, show 8 + (n - 8) = n by omega] using hbit

/-- The mask and match test of 30_encoding.md R61 says: the opcode is the row's, and every reserved bit is 0. -/
theorem masked_eq_matchBits_iff (o : Opcode) (w : CmdWord) :
    w &&& o.format.mask = o.matchBits ↔ opOf w = o.code ∧ o.format.ReservedZero w := by
  have hfix : 8 ≤ o.format.fixedBits ∧ o.format.fixedBits ≤ 128 := by cases o <;> decide
  constructor
  · intro h
    have hbit (n : Nat) (hn : n < o.format.fixedBits) : w.getLsbD n = o.code.getLsbD n := by
      rw [← Opcode.matchBits_getLsbD, ← h, BitVec.getLsbD_and, Format.mask_getLsbD _ (by omega)]
      simp [hn]
    refine ⟨BitVec.eq_of_getLsbD_eq fun n hn => ?_, fun n h8 hn => ?_⟩
    · rw [opOf_getLsbD w hn, hbit n (by omega)]
    · rw [hbit n hn, BitVec.getLsbD_of_ge _ _ h8]
  · rintro ⟨hop, hres⟩
    apply BitVec.eq_of_getLsbD_eq
    intro n hn
    rw [BitVec.getLsbD_and, Format.mask_getLsbD _ hn, Opcode.matchBits_getLsbD, ← hop]
    by_cases h8 : n < 8
    · simp [opOf_getLsbD w h8, show n < o.format.fixedBits by omega]
    · rw [BitVec.getLsbD_of_ge (opOf w) n (by omega)]
      by_cases hf : n < o.format.fixedBits
      · simp [hres n (by omega) hf]
      · simp [hf]

/-- A word decodes to a command exactly when its opcode is a row's, the row's reserved bits are 0, and the command has the
word's fields (30_encoding.md R62). -/
theorem decode_eq_ok_iff (w : CmdWord) (i : Instr) :
    decode w = .ok i ↔ ∃ o : Opcode, opOf w = o.code ∧ o.format.ReservedZero w ∧ i = Instr.ofFields o w := by
  rw [decode_ok_iff]
  constructor
  · rintro ⟨o, -, hm, hi⟩
    obtain ⟨hop, hres⟩ := (masked_eq_matchBits_iff o w).mp hm
    exact ⟨o, hop, hres, hi⟩
  · rintro ⟨o, hop, hres, hi⟩
    exact ⟨o, hop ▸ ofByte_code o, (masked_eq_matchBits_iff o w).mpr ⟨hop, hres⟩, hi⟩

/-! ### Encode, then decode -/

/-- The encoding of a command has its row's opcode (30_encoding.md R55, R61). -/
theorem opOf_encode (i : Instr) : opOf (encode i) = i.opcode.code := opOf_fields _ _ _

/-- The encoding of a command has zero reserved bits: what its format has no field for is 0. -/
theorem reservedZero_encode (i : Instr) : i.opcode.format.ReservedZero (encode i) := by
  intro n h8 hn
  unfold encode
  rw [fields_getLsbD, if_neg (by omega)]
  have hmid : 32 ≤ n → n < i.opcode.format.fixedBits → i.middle32 = 0 := by
    intro h32 hn
    cases i with
    | binc => exact absurd hn (Nat.not_lt.mpr h32)
    | test | add | testadd | testrem | reset | cap | krd | cnt | bget | breset | rdstat | rdfinfo => rfl
  have hhigh : 64 ≤ n → n < i.opcode.format.fixedBits → i.high64 = 0 := by
    intro h64 hn
    cases i with
    | test | add | testadd | testrem | bget => exact absurd hn (Nat.not_lt.mpr h64)
    | binc => exact absurd (Nat.lt_of_lt_of_le hn (show 32 ≤ 64 by decide)) (Nat.not_lt.mpr h64)
    | reset | cap | krd | cnt | breset | rdstat | rdfinfo => rfl
  split
  · rfl
  · split
    · rw [hmid (by omega) hn]; simp
    · rw [hhigh (by omega) hn]; simp

/-- The fields of a command's encoding are its operands (30_encoding.md R57). -/
theorem ofFields_encode (i : Instr) : Instr.ofFields i.opcode (encode i) = i := by
  have h64 : operand64 (encode i) = i.high64 := operand64_fields _ _ _
  have h32 : operandDelta (encode i) = i.middle32 := operandDelta_fields _ _ _
  cases i with
  | test | add | testadd | testrem | bget => exact congrArg _ h64
  | binc => exact congrArg₂ _ h64 h32
  | reset | cap | krd | cnt | breset | rdstat | rdfinfo => rfl

/-- A command is decoded from its word. -/
theorem decode_encode (i : Instr) : decode (encode i) = .ok i :=
  (decode_eq_ok_iff _ _).mpr ⟨i.opcode, opOf_encode i, reservedZero_encode i, (ofFields_encode i).symm⟩

/-- A command is decoded from its bytes, whatever bytes come after them (20_memory.md R45). -/
theorem decodeBytes_encodeBytes (i : Instr) (rest : List Byte) : decodeBytes (encodeBytes i ++ rest) = .ok (i, rest) := by
  have hlen : (encodeBytes i).length = 16 := bytesOfNat_length _ _
  have hword : BitVec.ofNat 128 (wordOfBytes (encodeBytes i)) = encode i := by
    unfold encodeBytes
    rw [wordOfBytes_bytesOfNat_toNat _ (by decide), BitVec.ofNat_toNat, BitVec.setWidth_eq]
  unfold decodeBytes
  rw [if_neg (by simp [hlen]), List.take_left' hlen, List.drop_left' hlen, hword, decode_encode]

/-- Settles O1: the word and its bytes. -/
theorem decodeInvertsEncode : Obligations.DecodeInvertsEncode :=
  fun i rest => ⟨decode_encode i, decodeBytes_encodeBytes i rest⟩

/-! ### Decode, then encode -/

/-- A word whose bits 31:8 are 0 is put together of its fields. -/
theorem fields_of_word {w : CmdWord} (h : Format.id.ReservedZero w) :
    operand64 w ++ operandDelta w ++ (0#24) ++ opOf w = w := by
  apply BitVec.eq_of_getLsbD_eq (w := 128)
  intro n hn
  rw [fields_getLsbD]
  split
  · next h8 => exact opOf_getLsbD w h8
  · split
    · next h8 h32 => exact (h n (by omega) h32).symm
    · split
      · next h32 h64 => rw [operandDelta_getLsbD w (by omega), Nat.add_sub_of_le (by omega)]
      · next h64 => rw [operand64_getLsbD w (by omega), Nat.add_sub_of_le (by omega)]

/-- A command with a word's fields carries the word's bits 127:64, which are 0 where its format reserves them. -/
theorem high64_ofFields {o : Opcode} {w : CmdWord} (h : o.format.ReservedZero w) :
    (Instr.ofFields o w).high64 = operand64 w := by
  have hzero (hf : o.format = .n) : 0 = operand64 w := by
    apply BitVec.eq_of_getLsbD_eq
    intro n hn
    rw [operand64_getLsbD w hn, h (64 + n) (by omega) (by rw [hf]; exact Nat.add_lt_add_left hn 64)]
    simp
  cases o with
  | test | add | testadd | testrem | bget | binc => rfl
  | reset | cap | krd | cnt | breset | rdstat | rdfinfo => exact hzero rfl

/-- A command with a word's fields carries the word's bits 63:32, which are 0 where its format reserves them. -/
theorem middle32_ofFields {o : Opcode} {w : CmdWord} (h : o.format.ReservedZero w) :
    (Instr.ofFields o w).middle32 = operandDelta w := by
  have hzero (hf : 64 ≤ o.format.fixedBits) : 0 = operandDelta w := by
    apply BitVec.eq_of_getLsbD_eq
    intro n hn
    rw [operandDelta_getLsbD w hn, h (32 + n) (by omega) (by omega)]
    simp
  cases o with
  | binc => rfl
  | test | add | testadd | testrem | bget | reset | cap | krd | cnt | breset | rdstat | rdfinfo => exact hzero (by decide)

/-- The row of a command with a word's fields. -/
theorem opcode_ofFields (o : Opcode) (w : CmdWord) : (Instr.ofFields o w).opcode = o := by cases o <;> rfl

/-- A word that decodes has its command's opcode. -/
theorem opOf_of_decode {w : CmdWord} {i : Instr} (h : decode w = .ok i) : opOf w = i.opcode.code := by
  obtain ⟨o, hop, -, rfl⟩ := (decode_eq_ok_iff w i).mp h
  rw [hop, opcode_ofFields]

/-- Settles O2: the fields of the word are those of the command, and bits 31:8 are reserved in every format. -/
theorem encodeInvertsDecode : Obligations.EncodeInvertsDecode := by
  intro w i h
  obtain ⟨o, hop, hres, rfl⟩ := (decode_eq_ok_iff w i).mp h
  have hfix : Format.id.fixedBits ≤ o.format.fixedBits := by cases o <;> decide
  unfold encode
  rw [high64_ofFields hres, middle32_ofFields hres, opcode_ofFields, ← hop]
  exact fields_of_word fun n h8 hn => hres n h8 (Nat.lt_of_lt_of_le hn hfix)

/-- Settles O3: seven fixed words, decoded. -/
theorem writtenWordsDecode : Obligations.WrittenWordsDecode := by
  unfold Obligations.WrittenWordsDecode
  decide

/-! ### The operands of a decoded command (30_encoding.md R57) -/

/-- A part of bits 127:64 is a part of the word. -/
theorem operand64_extractLsb' (w : CmdWord) {start len : Nat} (h : start + len ≤ 64) :
    (operand64 w).extractLsb' start len = w.extractLsb' (64 + start) len := by
  apply BitVec.eq_of_getLsbD_eq
  intro n hn
  simp [hn, operand64_getLsbD w (show start + n < 64 by omega), Nat.add_assoc]

/-- The digest of a command with a word's fields is bits 127:64 of the word. -/
theorem digest_ofFields {o : Opcode} {w : CmdWord} {dig : Value}
    (h : Instr.ofFields o w = .test dig ∨ Instr.ofFields o w = .add dig ∨ Instr.ofFields o w = .testadd dig ∨
      Instr.ofFields o w = .testrem dig) : dig = operand64 w := by
  have hhigh : (Instr.ofFields o w).high64 = dig := by
    obtain h | h | h | h := h <;> rw [h] <;> rfl
  cases o with
  | test | add | testadd | testrem | bget | binc => exact hhigh.symm
  | reset | cap | krd | cnt | breset | rdstat | rdfinfo => simp [Instr.ofFields] at h

/-- Settles O5: the operands are the fields that `Instr.ofFields` takes. -/
theorem operandsAreTheWordsFields : Obligations.OperandsAreTheWordsFields := by
  intro w i h
  obtain ⟨o, -, -, rfl⟩ := (decode_eq_ok_iff w i).mp h
  refine ⟨fun dig hdig => ?_, fun idx hidx => ?_, fun idx delta hbinc => ?_⟩
  · obtain rfl := digest_ofFields hdig
    exact ⟨rfl, congrArg BitVec.toNat (operand64_extractLsb' w (show 0 + 32 ≤ 64 by decide)),
      congrArg BitVec.toNat (operand64_extractLsb' w (show 32 + 32 ≤ 64 by decide))⟩
  · cases o <;> cases hidx
    rfl
  · cases o <;> cases hbinc
    exact ⟨rfl, rfl⟩

end Sys2Proof
end

section
/-! SUPPORT. The assembler: its example lines (O4), and that it takes exactly the lines whose operands are in range, with
their values (O6). -/

namespace Sys2Proof.Machine

/-- Settles O4: each line of text is assembled, character by character. -/
theorem exampleLinesAssemble : Obligations.ExampleLinesAssemble := by
  unfold Obligations.ExampleLinesAssemble
  decide

/-- A line that is not well formed gives no item. -/
theorem assembleLine_of_not_wf {l : SrcLine} (h : l.wf = false) : assembleLine l = .error .badOperands := by
  unfold assembleLine
  rw [h]
  rfl

/-- A well-formed line gives an item: every operand form that `SrcLine.wf` lists has its arm in the assembler. -/
theorem assembleLine_of_wf {l : SrcLine} (h : l.wf = true) : ∃ item, assembleLine l = .ok item := by
  unfold assembleLine
  rw [h]
  unfold SrcLine.wf at h
  split at h
  case h_19 => cases h
  all_goals next hm ho => rw [hm, ho]; exact ⟨_, rfl⟩

/-- An operand in the 64-bit range is held with its value. -/
theorem toNat_ofInt_of_inRange64 {v : Int} (h : inRange64 v) : ((BitVec.ofInt 64 v).toNat : Int) = v := by
  obtain ⟨h0, hlt⟩ := h
  rw [BitVec.toNat_ofInt, Int.toNat_of_nonneg (Int.emod_nonneg _ (by decide))]
  exact Int.emod_eq_of_lt h0 hlt

/-- An operand in the delta range is held with its value. -/
theorem deltaOf_ofInt_of_inRangeDelta {d : Int} (h : inRangeDelta d) : deltaOf (BitVec.ofInt 32 d) = d := by
  obtain ⟨hlo, hhi⟩ := h
  rw [deltaOf, BitVec.toInt_ofInt]
  exact Int.bmod_eq_of_le (by simpa using hlo) (by norm_num; omega)

/-- Settles O6: the well-formed lines are those assembled, and operands in range are held with their values. -/
theorem assemblerChecksRanges : Obligations.AssemblerChecksRanges := by
  refine ⟨fun l => ⟨fun ⟨item, h⟩ => ?_, assembleLine_of_wf⟩, fun v hv => ?_, fun v d hv hd => ?_⟩
  · by_contra hwf
    rw [assembleLine_of_not_wf (by simpa using hwf)] at h
    cases h
  · have hwf : decide (inRange64 v) = true := decide_eq_true hv
    refine ⟨BitVec.ofInt 64 v, toNat_ofInt_of_inRange64 hv, ?_⟩
    simp only [assembleLine, SrcLine.wf, hwf, Bool.not_true, Bool.false_eq_true, if_false, and_self]
  · have hwf : (decide (inRange64 v) && decide (inRangeDelta d)) = true := by
      rw [decide_eq_true hv, decide_eq_true hd]
      rfl
    refine ⟨BitVec.ofInt 64 v, BitVec.ofInt 32 d, toNat_ofInt_of_inRange64 hv, deltaOf_ofInt_of_inRangeDelta hd, ?_⟩
    simp only [assembleLine, SrcLine.wf, hwf, Bool.not_true, Bool.false_eq_true, if_false]

end Sys2Proof.Machine
end

section
/-! SUPPORT. What a command word does, by the checks of 30_encoding.md R62: FAULTED, an unlisted opcode, a reserved bit, and
else the command (O8, O10, O11). -/

namespace Sys2Proof.Machine

variable {s : State}

/-! ### The three ways a word can decode (30_encoding.md R62 to R64) -/

/-- A word whose opcode no row has. -/
theorem decode_of_unlisted {w : CmdWord} (h : Opcode.ofByte (opOf w) = none) :
    decode w = .error (.unlistedOpcode (opOf w)) := by
  unfold decode
  rw [h]

/-- A word of a row whose fixed bits do not match. -/
theorem decode_of_mismatch {w : CmdWord} {o : Opcode} (ho : Opcode.ofByte (opOf w) = some o)
    (hm : w &&& o.format.mask ≠ o.matchBits) : decode w = .error (.reservedBits (opOf w)) := by
  unfold decode
  rw [ho]
  exact if_neg hm

/-- A word of a row whose fixed bits match. -/
theorem decode_of_match {w : CmdWord} {o : Opcode} (ho : Opcode.ofByte (opOf w) = some o)
    (hm : w &&& o.format.mask = o.matchBits) : decode w = .ok (Instr.ofFields o w) :=
  (decode_ok_iff _ _).mpr ⟨o, ho, hm, rfl⟩

/-- The opcodes that are no status read (60_exceptions.md R127). -/
theorem statusReadOp_eq_false_iff {op : BitVec 8} : statusReadOp op = false ↔ op ≠ 0x20 ∧ op ≠ 0x21 := by
  unfold statusReadOp
  rw [Bool.or_eq_false_iff, beq_eq_false_iff_ne, beq_eq_false_iff_ne]

/-! ### Executing a word, check by check -/

/-- The FAULTED check comes first: a faulted instance answers every word but the status reads with FAULTED, also a word
that is no command (60_exceptions.md R127). -/
theorem executeWord_of_faulted {w : CmdWord} (hl : s.cfg.legal) (hf : s.fault = true) (hop : statusReadOp (opOf w) = false) :
    executeWord w s = .next (respond .faulted 0 s) := by
  rw [executeWord_legal hl]
  unfold wordNext
  split
  · next i hd =>
    rw [instrNext_faulted hf]
    rw [opOf_of_decode hd] at hop
    cases i with
    | rdstat | rdfinfo => cases hop
    | test | add | testadd | testrem | reset | cap | krd | cnt | bget | binc | breset => rfl
  · rw [hf, hop]
    rfl

/-- Where the FAULTED check passes, a word that is no command is ILLEGAL and changes nothing else (30_encoding.md R63,
R64). -/
theorem executeWord_of_decode_error {w : CmdWord} {e : DecodeError} (hl : s.cfg.legal)
    (hok : (s.fault && !statusReadOp (opOf w)) = false) (hd : decode w = .error e) :
    executeWord w s = .next (respond .illegal 0 s) := by
  rw [executeWord_legal hl]
  unfold wordNext
  rw [hd, hok]
  rfl

/-- A word that decodes runs its command. -/
theorem executeWord_of_decode_ok {w : CmdWord} {i : Instr} (hd : decode w = .ok i) : executeWord w s = exec i s := by
  unfold executeWord
  rw [hd]

/-- Settles O8: one case for each check, in their order. -/
theorem executeFollowsDispatchOrder : Obligations.ExecuteFollowsDispatchOrder := by
  intro w s hl
  split
  · next hc =>
    obtain ⟨hf, hop⟩ := hc
    exact executeWord_of_faulted hl hf (statusReadOp_eq_false_iff.mpr hop)
  · next hc =>
    have hok : (s.fault && !statusReadOp (opOf w)) = false := by
      rw [← statusReadOp_eq_false_iff] at hc
      simpa using hc
    split
    · next hnone => exact executeWord_of_decode_error hl hok (decode_of_unlisted hnone)
    · next o ho =>
      split
      · next hm => exact executeWord_of_decode_error hl hok (decode_of_mismatch ho hm)
      · next hm => exact executeWord_of_decode_ok (decode_of_match ho (not_not.mp hm))

/-! ### Words that are no command, on a ready instance -/

/-- A ready instance answers a word that is no command with ILLEGAL. -/
theorem executeWord_illegal_of_ready {w : CmdWord} {e : DecodeError} (hl : s.cfg.legal) (hf : s.fault = false)
    (hd : decode w = .error e) : executeWord w s = .next (respond .illegal 0 s) :=
  executeWord_of_decode_error hl (by rw [hf]; rfl) hd

/-- An opcode that is no row's finds no row. -/
theorem ofByte_eq_none {op : BitVec 8} (h : ∀ o : Opcode, o.code ≠ op) : Opcode.ofByte op = none := by
  cases ho : Opcode.ofByte op with
  | none => rfl
  | some o => exact absurd (code_of_ofByte ho) (h o)

/-- The opcode ranges that 30_encoding.md R63 calls unlisted. -/
abbrev UnlistedRange (op : BitVec 8) : Prop :=
  op = 0x00 ∨ (0x09 ≤ op.toNat ∧ op.toNat ≤ 0x0F) ∨ (0x13 ≤ op.toNat ∧ op.toNat ≤ 0x1F) ∨ 0x22 ≤ op.toNat

/-- No row has an opcode in these ranges. -/
theorem ofByte_of_unlistedRange {op : BitVec 8} (h : UnlistedRange op) : Opcode.ofByte op = none := by
  have hrow (o : Opcode) : ¬ UnlistedRange o.code := by cases o <;> decide
  exact ofByte_eq_none fun o ho => hrow o (ho ▸ h)

/-- Settles O10: the word's opcode is in an unlisted range, and so is that of the zero word. -/
theorem unlistedOpcodeIsIllegal : Obligations.UnlistedOpcodeIsIllegal := by
  intro w s hl hf hop
  exact ⟨executeWord_illegal_of_ready hl hf (decode_of_unlisted (ofByte_of_unlistedRange hop)),
    executeWord_illegal_of_ready hl hf (decode_of_unlisted (ofByte_of_unlistedRange (.inl (by decide))))⟩

/-- Settles O11: a reserved bit makes the mask and match test fail. -/
theorem reservedBitIsIllegal : Obligations.ReservedBitIsIllegal := by
  intro w s o hl hf hop hbits
  have hfield : w.extractLsb' 8 (o.format.fixedBits - 8) ≠ 0 := by
    cases hfmt : o.format <;> rw [hfmt] at hbits <;> exact hbits
  have hm : w &&& o.format.mask ≠ o.matchBits := fun hm =>
    hfield ((Format.reservedZero_iff _ _).mp ((masked_eq_matchBits_iff o w).mp hm).2)
  exact executeWord_illegal_of_ready hl hf (decode_of_mismatch (hop ▸ ofByte_code o) hm)

end Sys2Proof.Machine
end

section
/-! SUPPORT. The port event and its handshake: what it does where a word is accepted and where none is (O7, O22), what the
output ports show (O21), what is delivered (O24), and a served host's whole exchange (O25). -/

namespace Sys2Proof.Machine

variable {s : State}

/-! ### A port event without `rst` (30_encoding.md R54) -/

/-- A word is accepted where one is presented, `rst` is 0, and no response pends or the pending one is taken. -/
theorem accepts_iff : accepts s = true ↔
    (currentInput s).cmdValid = true ∧ (currentInput s).rst = false ∧
      (s.rsp = none ∨ (currentInput s).rspReady = true) := by
  simp [accepts, cmdReady]

/-- A port event that accepts a word executes it on the readied state. -/
theorem step_of_accepts (hl : s.cfg.legal) (hrst : (currentInput s).rst = false) (ha : accepts s = true) :
    step s = executeWord (currentInput s).cmdData (readied s) := by
  unfold step portEvent
  rw [whenLegal_of_legal _ hl, if_neg (by simp [hrst]), if_pos ha]

/-- A port event that accepts none is the handshake alone. -/
theorem step_of_waits (hl : s.cfg.legal) (hrst : (currentInput s).rst = false) (ha : accepts s = false) :
    step s = .next (readied s) := by
  unfold step portEvent
  rw [whenLegal_of_legal _ hl, if_neg (by simp [hrst]), if_neg (by simp [ha])]

/-- Settles O7: the word is accepted, and executing it is running the command it decodes to. -/
theorem stepRunsDecodedCommand : Obligations.StepRunsDecodedCommand := by
  intro s i hl hrst hvalid hrsp hd
  rw [step_of_accepts hl hrst (accepts_iff.mpr ⟨hvalid, hrst, hrsp⟩), executeWord_of_decode_ok hd]
  rfl

/-- Settles O22: the pending response blocks acceptance, and without `rsp_ready` the handshake leaves it. -/
theorem responseHeldUntilTaken : Obligations.ResponseHeldUntilTaken := by
  intro s r hl hr hrst hready
  have ha : accepts s = false := by
    rw [Bool.eq_false_iff, Ne, accepts_iff]
    simp [hr, hready]
  refine ⟨ha, ?_⟩
  rw [step_of_waits hl hrst ha, readied, hready, deliver_false]
  rfl

/-- Settles O21: `rsp_valid` is a pending response, and the codes are those of 30_encoding.md R59. -/
theorem outputPortsShowTheState : Obligations.OutputPortsShowTheState := by
  refine fun s => ⟨rfl, Option.isSome_iff_exists, fun r hr => ⟨by rw [rspValue, hr]; rfl, ?_⟩⟩
  have hcode (st : Status) :
      statusCode st = match st with | .ok => 0 | .illegal => 1 | .range => 2 | .faulted => 3 := by cases st <;> rfl
  rw [rspStatus, hr]
  exact congrArg some (hcode r.status)

/-! ### What a command and a word leave to the host: its inputs and what it has received (log 3) -/

/-- Two states agree in the configuration and in what belongs to the host. -/
abbrev SameHost (s t : State) : Prop := t.cfg = s.cfg ∧ t.inputs = s.inputs ∧ t.delivered = s.delivered

/-- A command on a ready instance. -/
theorem sameHost_readyNext (i : Instr) : SameHost s (readyNext s i) := by
  cases i with
  | testrem | bget | binc => simp only [readyNext]; split <;> exact ⟨rfl, rfl, rfl⟩
  | test | add | testadd | reset | cap | krd | cnt | breset | rdstat | rdfinfo => exact ⟨rfl, rfl, rfl⟩

/-- A command, ready or faulted. -/
theorem sameHost_instrNext (i : Instr) : SameHost s (instrNext s i) := by
  unfold instrNext
  split
  · obtain ⟨st, v, -, e⟩ := faultedNext_eq_respond s i
    rw [e]
    exact ⟨rfl, rfl, rfl⟩
  · exact sameHost_readyNext i

/-- A command word, also one that is no command. -/
theorem sameHost_wordNext (w : CmdWord) : SameHost s (wordNext s w) := by
  unfold wordNext
  split
  · exact sameHost_instrNext _
  · exact ⟨rfl, rfl, rfl⟩

/-- The handshake takes a pending response where `rsp_ready` is 1. -/
theorem readied_of_rspReady (h : (currentInput s).rspReady = true) :
    (readied s).rsp = none ∧ (readied s).delivered = s.delivered ++ s.rsp.toList := by
  obtain ⟨hr, hd, hn | hn⟩ | ⟨r, hr, -, hn, hd⟩ := readied_rsp s
  · exact ⟨hr.trans hn, by simp [hd, hn]⟩
  · simp [h] at hn
  · exact ⟨hn, by simp [hd, hr]⟩

/-- The handshake delivers nothing where no response pends or `rsp_ready` is 0. -/
theorem readied_delivered_of_held (h : s.rsp = none ∨ (currentInput s).rspReady = false) :
    (readied s).delivered = s.delivered := by
  obtain ⟨-, hd, -⟩ | ⟨r, hr, hready, -⟩ := readied_rsp s
  · exact hd
  · simp [hr, hready] at h

/-- A port event without `rst` delivers what its handshake delivers: an executed word delivers nothing itself. -/
theorem step_delivered {t : State} (hrst : (currentInput s).rst = false) (h : step s = .next t) :
    t.delivered = (readied s).delivered := by
  obtain ⟨hl, ⟨h1, -⟩ | ⟨-, -, hx⟩ | ⟨-, -, rfl⟩⟩ := step_cases h
  · simp [hrst] at h1
  · cases (executeWord_legal (s := readied s) (by rwa [readied_cfg]) _).symm.trans hx
    exact (sameHost_wordNext _).2.2
  · rfl

/-- Settles O24: with `rst` the event is a hardware reset, which keeps the record; else it delivers by its handshake. -/
theorem deliveryTakesThePendingResponse : Obligations.DeliveryTakesThePendingResponse := by
  intro s t h
  obtain ⟨hl, -⟩ := step_cases h
  refine ⟨fun r hr hready hrst => ?_, fun hheld => ?_⟩
  · obtain ⟨hnone, hdel⟩ := readied_of_rspReady hready
    refine ⟨by rw [step_delivered hrst h, hdel, hr]; rfl, fun ha => ?_⟩
    cases (step_of_waits hl hrst ha).symm.trans h
    exact hnone
  · cases hrst : (currentInput s).rst with
    | true =>
      cases (step_of_rst hl hrst).symm.trans h
      rfl
    | false => rw [step_delivered hrst h, readied_delivered_of_held (by simpa [hrst] using hheld)]

/-! ### Execution does not see the host -/

/-- A state with nothing driven and nothing delivered, its pending response kept. -/
def clearHost (s : State) : State := { s with inputs := [], delivered := [] }

/-- A ready state without its host side runs its commands all the same. -/
theorem readyNext_hostless (i : Instr) : readyNext (Safety.hostless s) i = clearHost (readyNext s i) := by
  have hmem (d : Int) (l : List Nat) : bumpAllMem d l (Safety.hostless s) = bumpAllMem d l s :=
    bumpAllMem_congr d l _ _ rfl rfl
  cases i with
  | add | testadd => simp only [readyNext, hmem]; rfl
  | testrem dig =>
    simp only [readyNext, hmem, apply_ite clearHost]
    rfl
  | bget | binc =>
    simp only [readyNext, apply_ite clearHost]
    rfl
  | test | reset | cap | krd | cnt | breset | rdstat | rdfinfo => rfl

/-- So does a faulted one. -/
theorem faultedNext_hostless (i : Instr) : faultedNext (Safety.hostless s) i = clearHost (faultedNext s i) := by
  cases i <;> rfl

/-- The same of a command, ready or faulted. -/
theorem instrNext_hostless (i : Instr) : instrNext (Safety.hostless s) i = clearHost (instrNext s i) := by
  rw [instrNext, instrNext, readyNext_hostless, faultedNext_hostless, apply_ite clearHost]
  rfl

/-- The same of a command word. -/
theorem wordNext_hostless (w : CmdWord) : wordNext (Safety.hostless s) w = clearHost (wordNext s w) := by
  unfold wordNext
  split
  · exact instrNext_hostless _
  · rfl

/-- States that agree but for their host side are taken by a word to states that do, with the same response. -/
theorem wordNext_of_hostless_eq {s' : State} (h : Safety.hostless s' = Safety.hostless s) (w : CmdWord) :
    Safety.hostless (wordNext s' w) = Safety.hostless (wordNext s w) ∧ (wordNext s' w).rsp = (wordNext s w).rsp := by
  have hnext : clearHost (wordNext s' w) = clearHost (wordNext s w) := by
    rw [← wordNext_hostless, ← wordNext_hostless, h]
  exact ⟨(congrArg Safety.hostless hnext :), (congrArg State.rsp hnext :)⟩

/-- The handshake moves only the host side. -/
theorem hostless_readied : Safety.hostless (readied s) = Safety.hostless s := by
  simp [Safety.hostless]

/-- Every word leaves a response pending. -/
theorem wordNext_rsp (w : CmdWord) : ∃ r, (wordNext s w).rsp = some r := by
  unfold wordNext instrNext
  split
  · next i _ =>
    split
    · obtain ⟨st, v, -, e⟩ := faultedNext_eq_respond s i
      exact ⟨_, by rw [e]; rfl⟩
    · cases i with
      | testrem | bget | binc => simp only [readyNext]; split <;> exact ⟨_, rfl⟩
      | test | add | testadd | reset | cap | krd | cnt | breset | rdstat | rdfinfo => exact ⟨_, rfl⟩
  · exact ⟨_, rfl⟩

/-! ### A served host (30_encoding.md R60, R78) -/

/-- The port event of a host that presents no word and takes the response that pends. -/
def PortIn.take : PortIn := { rst := false, cmdValid := false, cmdData := 0, rspReady := true }

/-- A run goes on from where its first step leads. -/
theorem run_succ {M : Host.Core} {x y : M.State} (n : Nat) (h : M.step x = .next y) : M.run (n + 1) x = M.run n y := by
  rw [Host.Core.run, h]

/-- A served host that presents words, from any state and with any response pending: the pending response is delivered
first, then one per word, and these are the responses of the words executed one after another from any state that agrees
but for the host side. -/
theorem serves (ws : List CmdWord) (s s' : State) (hl : s.cfg.legal) (hs : Safety.hostless s' = Safety.hostless s)
    (hin : s.inputs = ws.map PortIn.command ++ [PortIn.take]) :
    ∃ t u log, Safety.Runs s' log u ∧ log.map (fun e => e.1) = ws ∧
      Host.Core.run Sys2Proof.core (ws.length + 1) s = .next t ∧
      t.delivered = s.delivered ++ s.rsp.toList ++ log.map (fun e => e.2) ∧ t.rsp = none ∧ t.inputs = [] ∧
      Safety.hostless t = Safety.hostless u := by
  induction ws generalizing s s' with
  | nil =>
    have hcur : currentInput s = PortIn.take := by rw [currentInput, hin]; rfl
    obtain ⟨hrsp, hdel⟩ := readied_of_rspReady (s := s) (by rw [hcur]; rfl)
    have hstep := step_of_waits hl (by rw [hcur]; rfl) (by rw [accepts, hcur]; rfl)
    have hinputs : (readied s).inputs = [] := by rw [readied_inputs, hin]; rfl
    exact ⟨readied s, s', [], .nil s', rfl, run_succ (M := core) 0 hstep, by simp [hdel], hrsp, hinputs,
      hostless_readied.trans hs.symm⟩
  | cons w ws ih =>
    have hcur : currentInput s = PortIn.command w := by rw [currentInput, hin]; rfl
    obtain ⟨-, hdel⟩ := readied_of_rspReady (s := s) (by rw [hcur]; rfl)
    have hl' : s'.cfg.legal := by
      have hcfg : s'.cfg = s.cfg := (congrArg State.cfg hs :)
      rwa [hcfg]
    have hstep : step s = .next (wordNext (readied s) w) := by
      have ha : accepts s = true := accepts_iff.mpr (by rw [hcur]; exact ⟨rfl, rfl, .inr rfl⟩)
      rw [step_of_accepts hl (by rw [hcur]; rfl) ha, executeWord_legal (by rwa [readied_cfg]), hcur]
      rfl
    obtain ⟨hcfg, hinputs, hdelivered⟩ := sameHost_wordNext (s := readied s) w
    obtain ⟨hhost, hresp⟩ := wordNext_of_hostless_eq (hs.trans (hostless_readied (s := s)).symm) w
    obtain ⟨r, hr⟩ := wordNext_rsp (s := readied s) w
    obtain ⟨t, u, log, hruns, hwords, hrun, htdel, htrsp, htin, htu⟩ :=
      ih (wordNext (readied s) w) (wordNext s' w) (by rwa [hcfg, readied_cfg]) hhost
        (by rw [hinputs, readied_inputs, hin]; rfl)
    refine ⟨t, u, (w, r) :: log, .cons (executeWord_legal hl' w) (hresp.trans hr) hruns, by simp [hwords],
      (run_succ (M := core) _ hstep).trans hrun, ?_, htrsp, htin, htu⟩
    rw [htdel, hdelivered, hdel, hr]
    simp

/-- Settles O25: with no response pending at first, what is delivered is one response per word. -/
theorem wordsAreServedInOrder : Obligations.WordsAreServedInOrder := by
  intro ws s hl hrsp hin
  simpa [hrsp] using serves ws s (Safety.hostless s) hl rfl hin

end Sys2Proof.Machine
end

section
/-! SUPPORT. The BucketArray commands of 40_bucket_array.md: buckets stay in `[0, MAX]` (O35), what BGET, BINC, BDEC and BRESET
do (O38, O39, O40, O42, O43), and that underflow clamps to 0 for BINC and TESTREM (O41). -/

namespace Sys2Proof.Machine

variable {s t : State}

/-- Settles O35: a field of `b` bits is below `2^b`. -/
theorem bucketsWithinMax : Obligations.BucketsWithinMax := bkt_le_maxVal

/-- Settles O38: inside the index space BGET only responds, at or above `m` it only raises RANGE. -/
theorem bgetReadsBucket : Obligations.BgetReadsBucket := by
  intro s idx hl hf
  split
  · next h => exact execBget_inside hl hf h
  · next h => exact execBget_outside hl hf (Nat.not_lt.mp h)

/-! ### The clamped sum (40_bucket_array.md R81 to R83) -/

/-- On integers the clamped sum is the exact sum, cut off at 0 and at `2^b - 1`. -/
theorem bumped_toInt (c : Config) (v : Nat) (d : Int) :
    (bumped c v d : Int) = min (max ((v : Int) + d) 0) (2 ^ c.b.toNat - 1) := by
  have hmax : (maxVal c : Int) = 2 ^ c.b.toNat - 1 := by
    rw [maxVal, Nat.cast_sub Nat.one_le_two_pow, Nat.cast_pow]; rfl
  unfold bumped clamp
  omega

/-- A positive delta on MAX leaves MAX. -/
theorem bumped_maxVal (c : Config) {d : Int} (h : 0 < d) : bumped c (maxVal c) d = maxVal c := by
  unfold bumped clamp; omega

/-- A negative sum underflows to 0. -/
theorem bumped_of_neg (c : Config) {v : Nat} {d : Int} (h : (v : Int) + d < 0) : bumped c v d = 0 := by
  unfold bumped clamp; omega

/-! ### BINC and BDEC -/

/-- All that a BINC does inside the index space: it writes and answers the clamped sum, and touches nothing else. -/
theorem exec_binc_inside (hl : s.cfg.legal) (hf : s.fault = false) {idx : Value} (delta : BitVec 32)
    (h : idx.toNat < s.cfg.m.toNat) :
    ∃ t, exec (.binc idx delta) s = .next t ∧ t.bkt idx.toNat = bumped s.cfg (s.bkt idx.toNat) delta.toInt ∧
      t = { s with mem := t.mem, rsp := some ⟨.ok, BitVec.ofNat 64 (bumped s.cfg (s.bkt idx.toNat) delta.toInt)⟩ } ∧
      Safety.StoresOnly s t [idx.toNat] :=
  ⟨_, execBinc_inside hl hf delta h, (bkt_bumpMem _ _ _ s).trans (if_pos rfl), rfl,
    storesOnly_bumpAllMem delta.toInt [idx.toNat] s _ rfl rfl⟩

/-- Settles O39: the effect inside the index space with the sum on integers, and the RANGE fault at or above `m`. -/
theorem bincAddsClamped : Obligations.BincAddsClamped := by
  intro s idx delta hl hf
  refine ⟨fun h => ?_, fun h => execBinc_outside hl hf delta h⟩
  obtain ⟨t, hx, hbkt, ht, hframe⟩ := exec_binc_inside hl hf delta h
  exact ⟨t, _, hx, bumped_toInt _ _ _, hbkt, ht, hframe⟩

/-- The buckets after a BINC on a ready instance: the selected one, if there is one, holds the clamped sum. -/
theorem bkt_of_exec_binc {idx : Value} {delta : BitVec 32} (hf : s.fault = false) (hx : exec (.binc idx delta) s = .next t)
    (j : Nat) : t.bkt j =
      if j = idx.toNat ∧ idx.toNat < s.cfg.m.toNat then bumped s.cfg (s.bkt j) delta.toInt else s.bkt j := by
  obtain ⟨hl, -⟩ := exec_cases hx
  rcases Nat.lt_or_ge idx.toNat s.cfg.m.toNat with h | h
  · obtain ⟨t', hx', hbkt, -, hframe⟩ := exec_binc_inside hl hf delta h
    cases hx'.symm.trans hx
    by_cases hj : j = idx.toNat
    · subst hj; rw [if_pos ⟨rfl, h⟩, hbkt]
    · rw [if_neg (hj ·.1), hframe.buckets j (by simpa using hj)]
  · cases (execBinc_outside hl hf delta h).symm.trans hx
    exact (if_neg fun hj => Nat.not_lt.mpr h hj.2).symm

/-- Settles O40: the selected bucket holds a clamped sum, every other bucket is as before. -/
theorem bincSaturatesWithoutSpill : Obligations.BincSaturatesWithoutSpill := by
  intro s t idx delta hf hx
  have hbkt := bkt_of_exec_binc hf hx
  refine ⟨fun hmax hpos => ?_, fun j => ?_, fun j hj => ?_⟩
  · rw [hbkt, hmax, bumped_maxVal _ hpos, ite_self]
  · rw [hbkt]
    split
    · exact bumped_le _ _ _
    · exact bkt_le_maxVal s j
  · rw [hbkt, if_neg (hj ·.1)]

/-- Settles O42: BDEC is the BINC with delta -1, and one clamped decrement of a bucket value is truncated subtraction. -/
theorem bdecDecrements : Obligations.BdecDecrements := by
  intro s idx hl hf h
  obtain ⟨t, hx, hbkt, ht, hframe⟩ := exec_binc_inside hl hf (-1) h
  have hdec : bumped s.cfg (s.bkt idx.toNat) (-1 : BitVec 32).toInt = s.bkt idx.toNat - 1 :=
    bumped_neg_one _ (bkt_le_maxVal s _)
  rw [hdec] at hbkt ht
  have hrsp : t.rsp = some ⟨.ok, BitVec.ofNat 64 (s.bkt idx.toNat - 1)⟩ := congrArg State.rsp ht
  exact ⟨t, hx, hbkt.trans (Nat.max_zero _).symm, hrsp, hrsp ▸ ht, hframe⟩

/-! ### Underflow (40_bucket_array.md R83, 60_exceptions.md R132) -/

/-- A TESTREM of a member answers 1 and takes every bucket down once per occurrence, cut off at 0. -/
theorem exec_testrem_member (hl : s.cfg.legal) (hf : s.fault = false) {dig : Value}
    (hm : Safety.isMember s (indexList s.cfg dig)) :
    ∃ t, exec (.testrem dig) s = .next t ∧ (∀ j, t.bkt j = s.bkt j - (indexList s.cfg dig).count j) ∧
      t.rsp = some ⟨.ok, 1⟩ ∧ t.fault = false :=
  have hall : (indexList s.cfg dig).all (fun j => s.bkt j != 0) = true := by simpa using hm
  ⟨_, (execTestrem_ready hl hf dig).trans (if_pos hall), bkt_bumpAllMem_neg_one _ s, rfl, hf⟩

/-- Settles O41: a BINC writes the clamped sum, a TESTREM the truncated difference. -/
theorem underflowClampsToZero : Obligations.UnderflowClampsToZero := by
  intro s hl hf
  refine ⟨fun idx delta h hneg => ?_, fun dig j hm hneg => ?_⟩
  · obtain ⟨t, hx, hbkt, ht, -⟩ := exec_binc_inside hl hf delta h
    rw [bumped_of_neg _ hneg] at hbkt ht
    exact ⟨t, hx, hbkt, congrArg State.rsp ht, (congrArg State.fault ht).trans hf⟩
  · obtain ⟨t, hx, hbkt, hrsp, hfault⟩ := exec_testrem_member hl hf hm
    exact ⟨t, hx, by rw [hbkt]; omega, hrsp, hfault⟩

/-! ### BRESET -/

/-- Settles O43: BRESET zeroes the storage and responds; zeroing twice is zeroing once, and the response found plays no
part. -/
theorem bresetZeroesBuckets : Obligations.BresetZeroesBuckets := by
  intro s hl hf
  refine ⟨_, exec_ready hl hf .breset, rfl, fun j hj => bkt_zeroAll hj, fun p hp => memBit_zeroAll s p hp, ?_⟩
  calc exec .breset (respond .ok 0 (zeroAll s))
    _ = exec .breset (zeroAll s) := exec_respond _ _ _
    _ = .next (respond .ok 0 (zeroAll (zeroAll s))) := exec_ready (s := zeroAll s) hl hf .breset
    _ = .next (respond .ok 0 (zeroAll s)) := by rw [zeroAll_zeroAll]

end Sys2Proof.Machine
end

section
/-! SUPPORT. The index list a digest gives: double hashing on exact integers (O44), and the two other ways to compute it
(O45). -/

namespace Sys2Proof.Machine

variable {c : Config}

/-! ### The list (41_filter_membership.md R91) -/

/-- Every index of the list names a bucket of a legal configuration. -/
theorem indexList_lt_of_legal (hl : c.legal) (dig : Value) : ∀ j ∈ indexList c dig, j < c.m.toNat :=
  indexList_lt hl.2.1.1 dig

/-- Entry `i` of the list is the index of round `i`. -/
theorem indexList_getElem? (dig : Value) {i : Nat} (h : i < c.k.toNat) :
    (indexList c dig)[i]? = some (indexAt c dig i) := by
  simp [indexList, h]

/-- A round that adds a multiple of `m` to the index of another repeats it. -/
theorem indexAt_eq_of_upper_mul {dig : Value} {i i' : Nat} (hle : i' ≤ i)
    (h : digestUpper dig * (i - i') % c.m.toNat = 0) : indexAt c dig i = indexAt c dig i' := by
  have hsum : digestLower dig + digestUpper dig * i =
      digestLower dig + digestUpper dig * i' + digestUpper dig * (i - i') := by
    rw [Nat.add_assoc, ← Nat.mul_add, Nat.add_sub_cancel' hle]
  rw [indexAt, indexAt, hsum, Nat.add_mod, h, Nat.add_zero, Nat.mod_mod]

/-- Where `m` divides `upper`, every round has the index of round 0. -/
theorem indexAt_eq_of_upper_mod {dig : Value} (h : digestUpper dig % c.m.toNat = 0) (i : Nat) :
    indexAt c dig i = digestLower dig % c.m.toNat := by
  have h0 : digestUpper dig * (i - 0) % c.m.toNat = 0 := by rw [Nat.mul_mod, h, Nat.zero_mul, Nat.zero_mod]
  exact indexAt_eq_of_upper_mul (Nat.zero_le i) h0

/-- A list longer than `m` repeats an index: only `m` indices lie below `m`. -/
theorem not_nodup_indexList (hm : 1 ≤ c.m.toNat) (h : c.m.toNat < c.k.toNat) (dig : Value) : ¬ (indexList c dig).Nodup := by
  intro hnodup
  have hsub : indexList c dig ⊆ List.range c.m.toNat := fun j hj => List.mem_range.mpr (indexList_lt hm dig j hj)
  have hlen := (List.subperm_of_subset hnodup hsub).length_le
  rw [indexList_length, List.length_range] at hlen
  omega

/-- Settles O44: each clause is one of the facts above, and the example list is computed. -/
theorem indexListFollowsDoubleHashing : Obligations.IndexListFollowsDoubleHashing := by
  refine ⟨fun c dig hl => ?_, by decide⟩
  obtain ⟨-, ⟨hm, -⟩, -, -⟩ := hl
  refine ⟨indexList_length c dig, fun i hi => indexList_getElem? dig hi, indexList_lt hm dig, fun hup j hj => ?_,
    fun i i' hi hi' hle hup => ?_, fun hone j hj => ?_, fun hk => not_nodup_indexList hm hk dig⟩
  · obtain ⟨i, -, rfl⟩ := List.mem_map.mp hj
    exact indexAt_eq_of_upper_mod hup i
  · rw [indexList_getElem? dig hi, indexList_getElem? dig hi', indexAt_eq_of_upper_mul hle hup]
  · have := indexList_lt hm dig j hj
    omega

/-! ### The datapath (41_filter_membership.md R92) -/

/-- Two 32-bit halves and a round below `2^32` make a sum below `2^64`. -/
theorem index_sum_lt (dig : Value) {i : Nat} (h : i < 2 ^ 32) : digestLower dig + digestUpper dig * i < 2 ^ 64 := by
  have hlower : digestLower dig < 2 ^ 32 := (dig.extractLsb' 0 32).isLt
  have hupper : digestUpper dig < 2 ^ 32 := (dig.extractLsb' 32 32).isLt
  have hmul : digestUpper dig * i ≤ (2 ^ 32 - 1) * (2 ^ 32 - 1) := Nat.mul_le_mul (by omega) (by omega)
  omega

/-- The sum in 64 bits is the sum on integers. -/
theorem toNat_index_sum (dig : Value) {i : Nat} (h : i < 2 ^ 32) :
    ((dig.extractLsb' 0 32).setWidth 64 + (dig.extractLsb' 32 32).setWidth 64 * BitVec.ofNat 64 i).toNat =
      digestLower dig + digestUpper dig * i := by
  have hlower : ((dig.extractLsb' 0 32).setWidth 64).toNat = digestLower dig :=
    BitVec.toNat_setWidth_of_le (by decide)
  have hupper : ((dig.extractLsb' 32 32).setWidth 64).toNat = digestUpper dig :=
    BitVec.toNat_setWidth_of_le (by decide)
  have hround : (BitVec.ofNat 64 i).toNat = i := Nat.mod_eq_of_lt (by omega)
  rw [BitVec.toNat_add, BitVec.toNat_mul, hlower, hupper, hround, Nat.add_mod_mod, Nat.mod_eq_of_lt (index_sum_lt dig h)]

/-- Each round adds `upper` modulo `m` to the index before. -/
theorem indexAt_succ (dig : Value) (i : Nat) :
    indexAt c dig (i + 1) = (indexAt c dig i + digestUpper dig) % c.m.toNat := by
  rw [indexAt, indexAt, Nat.mod_add_mod, Nat.mul_succ, Nat.add_assoc]

/-- Settles O45: rounds lie below `2^32`; at 32 bits, with `m = 3`, the digest with `upper = 1` and `lower = 2^32 - 1`
has the index 0 in round 1, where the exact sum has 1. -/
theorem indexDatapathIs64Bits : Obligations.IndexDatapathIs64Bits := by
  refine ⟨fun c dig hl => ?_, { Config.example16 with m := 3 }, 0x00000001FFFFFFFF, 1, by decide⟩
  obtain ⟨⟨-, -, -, hK⟩, -, ⟨-, hk⟩, -⟩ := hl
  exact ⟨fun i hi => toNat_index_sum dig (by omega), by rw [indexAt, Nat.mul_zero, Nat.add_zero], indexAt_succ dig⟩

end Sys2Proof.Machine
end

section
/-! SUPPORT. The membership commands of 41_filter_membership.md: what TEST, ADD, TESTADD, TESTREM and RESET do (O46 to O48,
O50 to O52), that TESTADD is TEST then ADD (O49), and that TESTREM undoes ADD (O54, O56). -/

namespace Sys2Proof.Machine

variable {s t : State} {l : List Nat}

/-! ### Membership (41_filter_membership.md R93) -/

/-- `Member(L)`, as the commands compute it. -/
theorem all_bkt_ne_zero_iff : l.all (fun j => s.bkt j != 0) = true ↔ Safety.isMember s l := by simp

/-- The answer to a membership test. -/
theorem boolValue_all_bkt (s : State) (l : List Nat) :
    boolValue (l.all (fun j => s.bkt j != 0)) = if Safety.isMember s l then 1 else 0 := by
  by_cases hm : Safety.isMember s l
  · rw [all_bkt_ne_zero_iff.mpr hm, if_pos hm]; rfl
  · rw [Bool.eq_false_iff.mpr (mt all_bkt_ne_zero_iff.mp hm), if_neg hm]; rfl

/-- The index list of a legal configuration has an entry, as `k` is at least 1. -/
theorem exists_mem_indexList {c : Config} (hl : c.legal) (dig : Value) : ∃ j, j ∈ indexList c dig := by
  obtain ⟨-, -, ⟨hk, -⟩, -⟩ := hl
  exact List.exists_mem_of_length_pos (by rw [indexList_length]; exact hk)

/-- No digest is a member of an all-zero array. -/
theorem not_isMember_of_zero (hl : s.cfg.legal) (hz : ∀ j, j < s.cfg.m.toNat → s.bkt j = 0) (dig : Value) :
    ¬ Safety.isMember s (indexList s.cfg dig) := by
  intro hm
  obtain ⟨j, hj⟩ := exists_mem_indexList hl dig
  exact hm j hj (hz j (indexList_lt_of_legal hl dig j hj))

/-- Settles O46: TEST does nothing but answer membership. -/
theorem testAnswersMembership : Obligations.TestAnswersMembership := by
  intro s dig hl hf
  have hmember (hm : Safety.isMember s (indexList s.cfg dig)) :
      exec (.test dig) s = .next (respond .ok 1 s) := by
    rw [exec_ready hl hf, readyNext, boolValue_all_bkt, if_pos hm]
  have hnot (hm : ¬ Safety.isMember s (indexList s.cfg dig)) :
      exec (.test dig) s = .next (respond .ok 0 s) := by
    rw [exec_ready hl hf, readyNext, boolValue_all_bkt, if_neg hm]
  exact ⟨hmember, hnot, fun hz => hnot (not_isMember_of_zero hl hz dig)⟩

/-! ### ADD and TESTADD (41_filter_membership.md R96, R97, R100) -/

/-- Settles O47: the buckets and the frame are those of the rounds, COUNT is one up. -/
theorem addIncrementsAndCounts : Obligations.AddIncrementsAndCounts := by
  intro s dig hl hf
  exact ⟨_, exec_ready hl hf (.add dig), bkt_bumpAllMem_one _ s, rfl, storesOnly_bumpAllMem 1 _ s _ rfl rfl⟩

/-- Settles O48: the answer is membership in the state before, the rest is as for ADD. -/
theorem testaddTestsThenIncrements : Obligations.TestaddTestsThenIncrements := by
  intro s dig hl hf
  exact ⟨_, _, exec_ready hl hf (.testadd dig), boolValue_all_bkt s _, bkt_bumpAllMem_one _ s, rfl,
    storesOnly_bumpAllMem 1 _ s _ rfl rfl⟩

/-- After the increment of a bucket that is non-zero already, every bucket is non-zero exactly where it was, so membership
is as before. -/
theorem all_bkt_bumpMem_one {j : Nat} (hj : s.bkt j ≠ 0) (l : List Nat) :
    l.all (fun i => State.bkt { s with mem := bumpMem 1 j s } i != 0) = l.all (fun i => s.bkt i != 0) := by
  rw [Bool.eq_iff_iff, List.all_eq_true, List.all_eq_true]
  refine forall₂_congr fun i _ => ?_
  rw [bkt_bumpMem, bumped_one]
  have hle := bkt_le_maxVal s j
  by_cases h : i = j
  · subst h
    simp only [if_true, bne_iff_ne]
    omega
  · rw [if_neg h]

/-- TESTADD round by round reads every bucket as it was before the command or already incremented, and so answers
membership in the state before; its increments are the rounds of ADD (41_filter_membership.md R101). -/
theorem interleavedTestadd_ok (l : List Nat) (s : State) (h : ∀ j ∈ l, j < s.cfg.m.toNat) :
    Safety.interleavedTestadd l s =
      .ok (l.all (fun j => s.bkt j != 0), { s with mem := bumpAllMem 1 l s }) := by
  induction l generalizing s with
  | nil => rfl
  | cons j js ih =>
    have hj : j < s.cfg.m.toNat := h j (by simp)
    unfold Safety.interleavedTestadd
    simp only [readBucket_ok hj, bump_ok 1 hj]
    rw [ih { s with mem := bumpMem 1 j s } fun i hi => h i (by simp [hi])]
    by_cases hz : s.bkt j = 0
    · simp only [hz, List.all_cons, bne_self_eq_false, Bool.false_and]
      rfl
    · rw [all_bkt_bumpMem_one hz]
      rfl

/-- Settles O49: the response TEST leaves plays no part in the ADD after it, and the interleaved rounds are those of ADD. -/
theorem testaddIsTestThenAdd : Obligations.TestaddIsTestThenAdd := by
  intro s dig hl hf
  have hadd := exec_ready hl hf (.add dig)
  exact ⟨_, _, _, _, exec_ready hl hf (.testadd dig), exec_ready hl hf (.test dig), hadd,
    (exec_respond _ _ (.add dig)).trans hadd, rfl, rfl, rfl,
    _, _, interleavedTestadd_ok _ s (indexList_lt_of_legal hl dig), rfl, rfl⟩

/-! ### TESTREM (41_filter_membership.md R98, R100, R102, R106) -/

/-- Settles O50: the buckets and the frame are those of the rounds for a member; a non-member changes the scratch buffer
only. -/
theorem testremRemovesAMember : Obligations.TestremRemovesAMember := by
  intro s dig hl hf
  refine ⟨fun hm => ?_, fun hm => ?_⟩
  · exact ⟨_, (execTestrem_ready hl hf dig).trans (if_pos (all_bkt_ne_zero_iff.mpr hm)), bkt_bumpAllMem_neg_one _ s, rfl,
      storesOnly_bumpAllMem (-1) _ s _ rfl rfl⟩
  · exact ⟨_, (execTestrem_ready hl hf dig).trans (if_neg (mt all_bkt_ne_zero_iff.mp hm)), rfl⟩

/-- Settles O51: the three commands' buckets, TESTREM's where it has answered 1 and so has found a member. -/
theorem roundsPerOccurrence : Obligations.RoundsPerOccurrence := by
  intro s dig j hl hf hj
  obtain ⟨t, hadd, htbkt, -, -⟩ := addIncrementsAndCounts s dig hl hf
  obtain ⟨u, -, htestadd, -, hubkt, -, -⟩ := testaddTestsThenIncrements s dig hl hf
  obtain ⟨hmember, hnot⟩ := testremRemovesAMember s dig hl hf
  have ht := (htbkt j).trans (if_pos hj)
  have hu := (hubkt j).trans (if_pos hj)
  by_cases hm : Safety.isMember s (indexList s.cfg dig)
  · obtain ⟨w, hx, hwbkt, -, -⟩ := hmember hm
    exact ⟨t, u, w, hadd, htestadd, hx, ht, hu, fun _ => by rw [hwbkt]; omega⟩
  · obtain ⟨w, hx, hw⟩ := hnot hm
    refine ⟨t, u, w, hadd, htestadd, hx, ht, hu, fun hone => ?_⟩
    rw [hw] at hone
    simp at hone

/-- A TESTREM of a member takes to 0 a bucket that its list holds more often than its value, and answers 1 all the same. -/
theorem exec_testrem_clamps (hl : s.cfg.legal) (hf : s.fault = false) {dig : Value} {j : Nat}
    (hm : Safety.isMember s (indexList s.cfg dig)) (hlt : s.bkt j < (indexList s.cfg dig).count j) :
    ∃ t, exec (.testrem dig) s = .next t ∧ t.rsp = some ⟨.ok, 1⟩ ∧ t.bkt j = 0 := by
  obtain ⟨t, hx, hbkt, hrsp, -⟩ := exec_testrem_member hl hf hm
  exact ⟨t, hx, hrsp, by rw [hbkt]; omega⟩

/-- Settles O56: the general clause above; in the example all three rounds have the index 2. -/
theorem testremClampsRepeatedBucket : Obligations.TestremClampsRepeatedBucket := by
  refine ⟨fun s dig j hl hf hm _ hlt => exec_testrem_clamps hl hf hm hlt, fun s hl hf hm8 hk3 hone => ?_⟩
  have hlist : indexList s.cfg 0x0000000800000002 = [2, 2, 2] := by
    unfold indexList indexAt
    rw [hm8, hk3]
    decide
  refine ⟨hlist, exec_testrem_clamps hl hf ?_ ?_⟩
  · rw [hlist]
    show ∀ j ∈ [2, 2, 2], s.bkt j ≠ 0
    simp [hone]
  · rw [hlist, hone]
    decide

/-! ### ADD, then TESTREM of the same digest (41_filter_membership.md R103) -/

/-- MAX is at least 1 in a legal configuration. -/
theorem one_le_maxVal {c : Config} (hl : c.legal) : 1 ≤ maxVal c := by
  obtain ⟨-, -, -, hb, -⟩ := hl
  have hpow : 2 ^ 1 ≤ 2 ^ c.b.toNat := Nat.pow_le_pow_right (by decide) hb
  unfold maxVal
  omega

/-- A digest whose buckets have gone up as by ADD is a member. -/
theorem isMember_of_incremented (hl : s.cfg.legal)
    (hbkt : ∀ j, t.bkt j = if j ∈ l then min (s.bkt j + l.count j) (maxVal s.cfg) else s.bkt j) :
    Safety.isMember t l := by
  intro j hj
  have hcount := List.count_pos_iff.mpr hj
  have hmax := one_le_maxVal hl
  rw [hbkt, if_pos hj]
  omega

/-- Settles O54: the added digest is a member, so TESTREM takes the occurrences down again, from MAX where ADD saturated. -/
theorem addThenTestremRestores : Obligations.AddThenTestremRestores := by
  intro s dig hl hf
  obtain ⟨t, hadd, htbkt, ht, -⟩ := addIncrementsAndCounts s dig hl hf
  have hcfg : t.cfg = s.cfg := (congrArg State.cfg ht :)
  have hcount : t.count = s.count + 1 := (congrArg State.count ht :)
  have hmember : Safety.isMember t (indexList t.cfg dig) := hcfg ▸ isMember_of_incremented hl htbkt
  obtain ⟨u, hrem, hubkt, hu, -⟩ :=
    (testremRemovesAMember t dig (hcfg ▸ hl) ((congrArg State.fault ht).trans hf)).1 hmember
  rw [hcfg] at hubkt
  refine ⟨t, u, hadd, hrem, congrArg State.rsp hu, fun hfits => ⟨fun j => ?_, ?_⟩, fun j hj hmax => ?_⟩
  · rw [hubkt, htbkt]
    split
    · next hj => rw [min_eq_left (hfits j hj), Nat.add_sub_cancel]
    · next hj => rw [List.count_eq_zero_of_not_mem hj, Nat.sub_zero]
  · calc u.count
      _ = t.count - 1 := congrArg State.count hu
      _ = s.count := by rw [hcount, BitVec.add_sub_cancel]
  · have hpos := List.count_pos_iff.mpr hj
    have hone := one_le_maxVal hl
    have hbkt : u.bkt j = maxVal s.cfg - (indexList s.cfg dig).count j := by
      rw [hubkt, htbkt, if_pos hj, hmax, min_eq_right (Nat.le_add_right _ _)]
    exact ⟨by omega, fun honce => by rw [hbkt, honce]⟩

/-! ### RESET (41_filter_membership.md R99, R105) -/

/-- Settles O52: RESET zeroes the storage and COUNT and responds; what a command after it finds is an empty filter. -/
theorem resetEmptiesTheFilter : Obligations.ResetEmptiesTheFilter := by
  intro s hl hf
  have hzero : ∀ j, j < s.cfg.m.toNat → (readyNext s .reset).bkt j = 0 := fun j hj => bkt_zeroAll hj
  refine ⟨readyNext s .reset, exec_ready hl hf .reset, rfl, hzero, memBit_zeroAll s, ?_, ?_, fun dig => ?_⟩
  · calc exec .reset (readyNext s .reset)
      _ = .next (respond .ok 0 (clearCount (zeroAll (zeroAll s)))) := exec_ready (s := readyNext s .reset) hl hf .reset
      _ = .next (readyNext s .reset) := by rw [zeroAll_zeroAll]; rfl
  · exact exec_ready (s := readyNext s .reset) hl hf .cnt
  · obtain ⟨-, -, hempty⟩ := testAnswersMembership (readyNext s .reset) dig hl hf
    exact hempty hzero

end Sys2Proof.Machine
end

section
/-! SUPPORT. Words executed one after another: COUNT is the adds less the removals (O57), and an added digest stays a member
until a removal (O55). Each is a fact about one word, carried along the run. -/

namespace Sys2Proof.Machine

variable {s t u : State} {w : CmdWord} {i : Instr} {r : Response} {log : List (CmdWord × Response)}

/-- A word that answers has run on an instance that exists, and has done what `wordNext` says. -/
theorem eq_wordNext_of_executeWord (h : executeWord w s = .next t) : s.cfg.legal ∧ t = wordNext s w := by
  by_cases hl : s.cfg.legal
  · exact ⟨hl, Host.Outcome.next.inj (h.symm.trans (executeWord_legal hl w))⟩
  · unfold executeWord at h
    split at h
    · cases (exec_of_illegal hl _).symm.trans h
    · cases (whenLegal_of_illegal _ hl).symm.trans h

/-! ### COUNT over a run (41_filter_membership.md R107) -/

/-- The executed ADD and TESTADD of a log less its TESTREM that returned 1. -/
def netAdds (log : List (CmdWord × Response)) : Int := log.countP Safety.isAdd - log.countP Safety.isRemoval

/-- A log's net adds are those of its first entry and those of the rest. -/
theorem netAdds_cons (e : CmdWord × Response) (log : List (CmdWord × Response)) :
    netAdds (e :: log) = netAdds [e] + netAdds log := by
  unfold netAdds
  rw [← List.singleton_append, List.countP_append, List.countP_append]
  push_cast
  ring

/-- What a command with a given response counts as: an add, a removal, or neither. -/
def countChange : Instr → Response → Int
  | .add _, r | .testadd _, r => if r.status = .ok then 1 else 0
  | .testrem _, r => if r.status = .ok ∧ r.value = 1 then -1 else 0
  | _, _ => 0

/-- The net adds of one entry, by its command. -/
theorem netAdds_singleton (hd : decode w = .ok i) (r : Response) : netAdds [(w, r)] = countChange i r := by
  cases i with
  | add | testadd => simp [netAdds, Safety.isAdd, Safety.isRemoval, countChange, hd, List.countP_cons]
  | testrem =>
    simp [netAdds, Safety.isAdd, Safety.isRemoval, countChange, hd, List.countP_cons, apply_ite (Neg.neg : Int → Int)]
  | test | reset | cap | krd | cnt | bget | binc | breset | rdstat | rdfinfo =>
    simp [netAdds, Safety.isAdd, Safety.isRemoval, countChange, hd]

/-- A word that is no command is no add and no removal. -/
theorem netAdds_of_decode_error {e : DecodeError} (hd : decode w = .error e) (r : Response) : netAdds [(w, r)] = 0 := by
  simp [netAdds, Safety.isAdd, Safety.isRemoval, hd]

/-- A command on a ready instance changes COUNT by what it counts as, unless it is RESET. -/
theorem readyNext_count_eq (hi : i ≠ .reset) (hr : (readyNext s i).rsp = some r) :
    (readyNext s i).count = s.count + BitVec.ofInt 64 (countChange i r) := by
  cases i with
  | add | testadd => cases hr; rfl
  | testrem dig =>
    simp only [readyNext] at hr ⊢
    split at hr
    · next hm =>
      cases hr
      have hremoval : countChange (.testrem dig) ⟨.ok, 1⟩ = -1 := by simp [countChange]
      rw [if_pos hm, hremoval]
      exact BitVec.sub_eq_add_neg s.count 1
    · next hm =>
      cases hr
      have hnone : countChange (.testrem dig) ⟨.ok, 0⟩ = 0 := by simp [countChange]
      rw [if_neg hm, hnone]
      exact (BitVec.add_zero _).symm
  | reset => exact absurd rfl hi
  | bget | binc => simp only [readyNext]; split <;> exact (BitVec.add_zero _).symm
  | test | cap | krd | cnt | breset | rdstat | rdfinfo => exact (BitVec.add_zero _).symm

/-- A command on a faulted instance leaves COUNT, and counts as nothing. -/
theorem faultedNext_count_eq (hr : (faultedNext s i).rsp = some r) :
    (faultedNext s i).count = s.count + BitVec.ofInt 64 (countChange i r) := by
  have hnone : countChange i r = 0 := by
    cases i with
    | add | testadd | testrem => cases hr; rfl
    | test | reset | cap | krd | cnt | bget | binc | breset | rdstat | rdfinfo => rfl
  obtain ⟨st, v, -, e⟩ := faultedNext_eq_respond s i
  rw [hnone, e]
  exact (BitVec.add_zero _).symm

/-- A word changes COUNT by its entry's net adds, unless it is a RESET that is executed. -/
theorem wordNext_count_eq (hreset : decode w = .ok .reset → r.status ≠ .ok) (hr : (wordNext s w).rsp = some r) :
    (wordNext s w).count = s.count + BitVec.ofInt 64 (netAdds [(w, r)]) := by
  unfold wordNext at hr ⊢
  split at hr
  · next i hd =>
    rw [netAdds_singleton hd]
    cases hf : s.fault with
    | true =>
      rw [instrNext_faulted hf] at hr ⊢
      exact faultedNext_count_eq hr
    | false =>
      rw [instrNext_ready hf] at hr ⊢
      refine readyNext_count_eq (fun hi => ?_) hr
      subst hi
      cases hr
      exact hreset hd rfl
  · next hd =>
    rw [netAdds_of_decode_error hd]
    exact (BitVec.add_zero _).symm

/-- Over a run without an executed RESET, COUNT changes by the log's net adds. -/
theorem count_of_runs (h : Safety.Runs s log u) (hreset : ∀ e ∈ log, decode e.1 = .ok .reset → e.2.status ≠ .ok) :
    u.count = s.count + BitVec.ofInt 64 (netAdds log) := by
  induction h with
  | nil s => exact (BitVec.add_zero _).symm
  | cons hx hr _ ih =>
    obtain ⟨-, rfl⟩ := eq_wordNext_of_executeWord hx
    obtain ⟨hw, hrest⟩ := List.forall_mem_cons.mp hreset
    rw [netAdds_cons, BitVec.ofInt_add, ← BitVec.add_assoc, ← wordNext_count_eq hw hr, ih hrest]

/-- Settles O57: from COUNT = 0 the 64-bit COUNT is the net adds, modulo `2^64`. -/
theorem countIsAddsMinusRemovals : Obligations.CountIsAddsMinusRemovals := by
  intro s u log hzero hruns hreset
  have hcount : u.count = BitVec.ofInt 64 (netAdds log) := by
    rw [count_of_runs hruns hreset, hzero]
    exact BitVec.zero_add _
  rw [hcount, BitVec.toNat_ofInt, Int.toNat_of_nonneg (Int.emod_nonneg _ (by decide))]
  rfl

/-! ### No false negative before a removal (41_filter_membership.md R104) -/

/-- No bucket has gone down and FAULT has not been set. -/
structure NotLowered (s t : State) : Prop where
  cfg : t.cfg = s.cfg
  fault : t.fault = s.fault
  bkt : ∀ j, s.bkt j ≤ t.bkt j

/-- Two stretches of a run that lower nothing. -/
theorem NotLowered.trans (h : NotLowered s t) (h' : NotLowered t u) : NotLowered s u :=
  ⟨h'.cfg.trans h.cfg, h'.fault.trans h.fault, fun j => (h.bkt j).trans (h'.bkt j)⟩

/-- Responding lowers nothing. -/
theorem notLowered_respond (s : State) (st : Status) (v : Value) : NotLowered s (respond st v s) :=
  ⟨rfl, rfl, fun _ => Nat.le_refl _⟩

/-- The rounds of ADD and TESTADD lower no bucket. -/
theorem bkt_le_bkt_bumpAllMem_one (l : List Nat) (s : State) (j : Nat) :
    s.bkt j ≤ State.bkt { s with mem := bumpAllMem 1 l s } j := by
  rw [bkt_bumpAllMem_one]
  split
  · exact le_min (Nat.le_add_right _ _) (bkt_le_maxVal s j)
  · exact Nat.le_refl _

/-- A round with a delta that is not negative lowers no bucket. -/
theorem bkt_le_bkt_bumpMem {d : Int} (hd : 0 ≤ d) (i : Nat) (s : State) (j : Nat) :
    s.bkt j ≤ State.bkt { s with mem := bumpMem d i s } j := by
  have hle := bkt_le_maxVal s i
  rw [bkt_bumpMem]
  split
  · next h => subst h; unfold bumped clamp; omega
  · exact Nat.le_refl _

/-- The commands of R104 lower nothing on a ready instance, where they do not answer RANGE. -/
theorem notLowered_readyNext (hi : Safety.neverLowers i = true) (hr : (readyNext s i).rsp = some r)
    (hrange : r.status ≠ .range) : NotLowered s (readyNext s i) := by
  cases i with
  | test | cap | krd | cnt | rdstat | rdfinfo => exact notLowered_respond s _ _
  | add | testadd => exact ⟨rfl, rfl, bkt_le_bkt_bumpAllMem_one _ s⟩
  | bget idx =>
    simp only [readyNext] at hr ⊢
    split at hr
    · next h => rw [if_pos h]; exact notLowered_respond s _ _
    · cases hr; exact absurd rfl hrange
  | binc idx delta =>
    simp only [readyNext] at hr ⊢
    split at hr
    · next h => rw [if_pos h]; exact ⟨rfl, rfl, bkt_le_bkt_bumpMem (of_decide_eq_true hi) _ s⟩
    · cases hr; exact absurd rfl hrange
  | testrem | reset | breset => cases hi

/-- A word that is illegal or one of these commands lowers nothing, where it does not answer RANGE. -/
theorem notLowered_wordNext (hw : ∀ i, decode w = .ok i → Safety.neverLowers i = true)
    (hr : (wordNext s w).rsp = some r) (hrange : r.status ≠ .range) : NotLowered s (wordNext s w) := by
  unfold wordNext at hr ⊢
  split at hr
  · next i hd =>
    cases hf : s.fault with
    | true =>
      obtain ⟨st, v, -, e⟩ := faultedNext_eq_respond s i
      rw [instrNext_faulted hf, e]
      exact notLowered_respond s st v
    | false =>
      rw [instrNext_ready hf] at hr ⊢
      exact notLowered_readyNext (hw i hd) hr hrange
  · exact notLowered_respond s _ _

/-- A run of such words lowers nothing. -/
theorem notLowered_of_runs (h : Safety.Runs s log u)
    (hlog : ∀ e ∈ log, ∀ i, decode e.1 = .ok i → Safety.neverLowers i = true)
    (hrange : ∀ e ∈ log, e.2.status ≠ .range) : NotLowered s u := by
  induction h with
  | nil s => exact ⟨rfl, rfl, fun _ => Nat.le_refl _⟩
  | cons hx hr _ ih =>
    obtain ⟨-, rfl⟩ := eq_wordNext_of_executeWord hx
    obtain ⟨hw, hlog⟩ := List.forall_mem_cons.mp hlog
    obtain ⟨hwr, hrange⟩ := List.forall_mem_cons.mp hrange
    exact (notLowered_wordNext hw hr hwr).trans (ih hlog hrange)

/-- After an ADD or TESTADD on a ready instance its digest is a member, and nothing has been lowered. -/
theorem added_isMember {dig : Value} (hl : s.cfg.legal) (hf : s.fault = false)
    (h : exec (.add dig) s = .next t ∨ exec (.testadd dig) s = .next t) :
    NotLowered s t ∧ Safety.isMember t (indexList s.cfg dig) := by
  obtain h | h := h
  all_goals
    cases (exec_ready hl hf _).symm.trans h
    exact ⟨⟨rfl, rfl, bkt_le_bkt_bumpAllMem_one _ s⟩, isMember_of_incremented hl (bkt_bumpAllMem_one _ s)⟩

/-- Settles O55: the added digest's buckets are non-zero after the ADD or TESTADD, and no word of the run lowers one. -/
theorem noFalseNegativeBeforeRemoval : Obligations.NoFalseNegativeBeforeRemoval := by
  intro s t u dig log hl hf hadd hruns hlog hrange
  obtain ⟨hst, hmember⟩ := added_isMember hl hf hadd
  have htu := notLowered_of_runs hruns hlog hrange
  obtain ⟨hcfg, hfault, -⟩ := hst.trans htu
  have hu : Safety.isMember u (indexList u.cfg dig) := by
    rw [hcfg]
    exact fun j hj hz => hmember j hj (Nat.le_zero.mp (hz ▸ htu.bkt j))
  obtain ⟨htest, -⟩ := testAnswersMembership u dig (hcfg ▸ hl) (hfault.trans hf)
  exact htest hu

end Sys2Proof.Machine
end

section
/-! SUPPORT. The accessor and status commands (42_accessors_status.md): the fields of the status word, what RDSTAT and
RDFINFO answer (O59), and that no port event changes what CAP and KRD answer (O58). -/

namespace Sys2Proof.Machine

variable {s t : State}

/-! ### The status word (10_state.md R28) -/

/-- The status word from its fields, the highest first. -/
theorem statusWord_eq_append (s : State) : statusWord s = 0#56 ++ (s.cause ++ 0#3 ++ BitVec.ofBool s.fault) :=
  BitVec.setWidth_eq_append (by decide)

/-- A field inside the low byte of the status word is a field of the byte of CAUSE, three zeros and FAULT. -/
theorem statusWord_extractLsb' (s : State) {start len : Nat} (h : start + len ≤ 8) :
    (statusWord s).extractLsb' start len = (s.cause ++ 0#3 ++ BitVec.ofBool s.fault).extractLsb' start len := by
  rw [statusWord_eq_append, BitVec.extractLsb'_append_eq_of_add_le h]

theorem statusWord_faultBit (s : State) : (statusWord s).extractLsb' 0 1 = BitVec.ofBool s.fault := by
  rw [statusWord_extractLsb' s (by decide), BitVec.extractLsb'_append_eq_right]

theorem statusWord_bits3to1 (s : State) : (statusWord s).extractLsb' 1 3 = 0 := by
  rw [statusWord_extractLsb' s (by decide), BitVec.extractLsb'_append_eq_of_le (by decide),
    BitVec.extractLsb'_append_eq_right]
  rfl

theorem statusWord_causeField (s : State) : (statusWord s).extractLsb' 4 4 = s.cause := by
  rw [statusWord_extractLsb' s (by decide), BitVec.extractLsb'_append_eq_of_le (by decide),
    BitVec.extractLsb'_append_eq_left]

theorem statusWord_bits63to8 (s : State) : (statusWord s).extractLsb' 8 56 = 0 := by
  rw [statusWord_eq_append]
  exact BitVec.extractLsb'_append_eq_left

/-- The status word of a ready, coherent instance. -/
theorem statusWord_of_ready (hf : s.fault = false) (hc : s.cause = 0) : statusWord s = 0 := by
  rw [statusWord, hf, hc]
  rfl

/-- The status word of an instance faulted by RANGE. -/
theorem statusWord_of_range (hf : s.fault = true) (hc : s.cause = causeRange) : statusWord s = 0x21 := by
  rw [statusWord, hf, hc]
  rfl

/-! ### RDSTAT and RDFINFO (R117, R118) -/

/-- RDSTAT answers the status word, ready or faulted. -/
theorem exec_rdstat (hl : s.cfg.legal) : exec .rdstat s = .next (respond .ok (statusWord s) s) := whenLegal_of_legal _ hl

/-- RDFINFO answers FINFO, ready or faulted. -/
theorem exec_rdfinfo (hl : s.cfg.legal) : exec .rdfinfo s = .next (respond .ok s.finfo s) := whenLegal_of_legal _ hl

/-- Settles O59: the fields are those of the status word, and the invariant says what CAUSE and FINFO are. -/
theorem statusReadsAnswer : Obligations.StatusReadsAnswer := by
  refine ⟨fun s hl => ⟨exec_rdfinfo hl, statusWord s, exec_rdstat hl, statusWord_faultBit s, statusWord_bits3to1 s,
    statusWord_causeField s, statusWord_bits63to8 s⟩, fun s h => ⟨fun hf => ?_, fun hf => ?_⟩⟩
  · obtain ⟨hcause, hfinfo⟩ := h.faultCoherent.1 hf
    exact ⟨statusWord_of_ready hf hcause ▸ exec_rdstat h.legal, hfinfo ▸ exec_rdfinfo h.legal⟩
  · obtain ⟨hcause, hfinfo⟩ := h.faultCoherent.2 hf
    exact ⟨statusWord_of_range hf hcause ▸ exec_rdstat h.legal, s.finfo, hfinfo, exec_rdfinfo h.legal⟩

/-! ### CAP, KRD and CNT (R114 to R116) -/

/-- No port event changes the configuration: a hardware reset, a handshake and every executed word keep it. -/
theorem step_cfg (h : step s = .next t) : t.cfg = s.cfg := by
  obtain ⟨-, ⟨-, rfl⟩ | ⟨-, -, hx⟩ | ⟨-, -, rfl⟩⟩ := step_cases h
  · simp
  · obtain ⟨-, rfl⟩ := eq_wordNext_of_executeWord hx
    obtain ⟨hcfg, -⟩ := sameHost_wordNext (s := readied s) (currentInput s).cmdData
    exact hcfg.trans (readied_cfg s)
  · exact readied_cfg s

/-- Settles O58: each accessor only responds, and a port event keeps the configuration that CAP and KRD read. -/
theorem accessorsAnswer : Obligations.AccessorsAnswer := by
  refine fun s hl hf => ⟨exec_ready hl hf .cap, exec_ready hl hf .krd, exec_ready hl hf .cnt, fun t h => ?_⟩
  rw [step_cfg h]
  exact ⟨rfl, rfl⟩

end Sys2Proof.Machine
end

section
/-! SUPPORT. Errors and faults (60_exceptions.md): the status a word answers (O9, O17), ILLEGAL (O12), entering the faulted
state (O14), what it answers and what it keeps (O13, O15), and an invalid configuration (O18). -/

namespace Sys2Proof.Machine

variable {s t u : State}

/-! ### RANGE (R123, R124, R126) -/

/-- Settles O14: on a ready instance both bucket commands only raise RANGE at or above `m`. -/
theorem rangeFaultEntry : Obligations.RangeFaultEntry :=
  fun _ _ delta hl hf h => ⟨execBget_outside hl hf h, execBinc_outside hl hf delta h⟩

/-- The index operand of a command that takes one (40_bucket_array.md R79). -/
def bucketIndexOf : Instr → Option Value
  | .bget idx | .binc idx _ => some idx
  | _ => none

/-- The bucket operand of a word is that of its command. -/
theorem bucketOperand_eq_bucketIndexOf {w : CmdWord} {i : Instr} (hd : decode w = .ok i) :
    Safety.bucketOperand w = bucketIndexOf i := by
  unfold Safety.bucketOperand
  rw [hd]
  cases i <;> rfl

/-- Every command but BGET and BINC takes no index operand. -/
theorem bucketIndexOf_eq_none {i : Instr} (hget : ∀ idx, i ≠ .bget idx) (hinc : ∀ idx delta, i ≠ .binc idx delta) :
    bucketIndexOf i = none := by
  cases i with
  | bget idx => exact absurd rfl (hget idx)
  | binc idx delta => exact absurd rfl (hinc idx delta)
  | test | add | testadd | testrem | reset | cap | krd | cnt | breset | rdstat | rdfinfo => rfl

/-- The status of an executed command, by its index operand: RANGE for one at or above `m`, else OK; `readyNext_rsp` ties
it to the commands. -/
def indexStatus (c : Config) : Option Value → Status
  | some idx => if c.m.toNat ≤ idx.toNat then .range else .ok
  | none => .ok

/-- What a command answers on a ready instance: only its index operand decides the status, and RANGE carries 0. -/
theorem readyNext_rsp (s : State) (i : Instr) :
    ∃ r, (readyNext s i).rsp = some r ∧ Safety.responseSound r ∧ r.status = indexStatus s.cfg (bucketIndexOf i) := by
  cases i with
  | bget idx | binc idx =>
    by_cases h : idx.toNat < s.cfg.m.toNat
    · exact ⟨_, by rw [readyNext, if_pos h]; rfl, fun hne => absurd rfl hne, (if_neg (Nat.not_le.mpr h)).symm⟩
    · exact ⟨_, by rw [readyNext, if_neg h]; rfl, fun _ => rfl, (if_pos (Nat.not_lt.mp h)).symm⟩
  | testrem dig => simp only [readyNext]; split <;> exact ⟨_, rfl, fun hne => absurd rfl hne, rfl⟩
  | test | add | testadd | reset | cap | krd | cnt | breset | rdstat | rdfinfo =>
    exact ⟨_, rfl, fun hne => absurd rfl hne, rfl⟩

/-- Settles O17: a faulted instance never answers RANGE, and on a ready one a command without an index operand answers
OK. -/
theorem membershipNeverRange : Obligations.MembershipNeverRange := by
  intro s t i hget hinc h
  obtain ⟨hl, -⟩ := exec_cases h
  cases (exec_legal hl i).symm.trans h
  cases hf : s.fault with
  | true =>
    obtain ⟨st, v, hst, e⟩ := faultedNext_eq_respond s i
    exact ⟨⟨st, v⟩, by rw [instrNext_faulted hf, e]; rfl, hst⟩
  | false =>
    obtain ⟨r, hr, -, hstatus⟩ := readyNext_rsp s i
    have hok : r.status = .ok := by rw [hstatus, bucketIndexOf_eq_none hget hinc]; rfl
    exact ⟨r, by rw [instrNext_ready hf, hr], by rw [hok]; decide⟩

/-! ### The status of a word (R130) -/

/-- A word that names no command is one that does not decode. -/
theorem illegalWord_iff {w : CmdWord} : Safety.illegalWord w = true ↔ ∃ e, decode w = .error e := by
  unfold Safety.illegalWord
  cases decode w <;> simp

/-- The status reads are the commands of the two opcodes that pass the FAULTED check (R127). -/
theorem statusRead_of_decode {w : CmdWord} {i : Instr} (hd : decode w = .ok i) (hop : statusReadOp (opOf w) = true) :
    i = .rdstat ∨ i = .rdfinfo := by
  rw [opOf_of_decode hd] at hop
  cases i with
  | rdstat => exact .inl rfl
  | rdfinfo => exact .inr rfl
  | test | add | testadd | testrem | reset | cap | krd | cnt | bget | binc | breset => cases hop

/-- What a command answers where the FAULTED check passes: as on a ready instance, the status reads also while faulted. -/
theorem instrNext_rsp {i : Instr} (hok : s.fault = true → i = .rdstat ∨ i = .rdfinfo) :
    ∃ r, (instrNext s i).rsp = some r ∧ Safety.responseSound r ∧ r.status = indexStatus s.cfg (bucketIndexOf i) := by
  cases hf : s.fault with
  | false => rw [instrNext_ready hf]; exact readyNext_rsp s i
  | true =>
    rw [instrNext_faulted hf]
    obtain rfl | rfl := hok hf <;> exact ⟨_, rfl, fun hne => absurd rfl hne, rfl⟩

/-- Settles O9: one case for each check, in the order of R130; in the example the reserved bits come before the index. -/
theorem statusPriority : Obligations.StatusPriority := by
  refine ⟨fun w s hl => ?_, fun s hl hf _ => ?_⟩
  · by_cases hfaulted : s.fault = true ∧ opOf w ≠ 0x20 ∧ opOf w ≠ 0x21
    · obtain ⟨hf, hop⟩ := hfaulted
      exact ⟨_, _, executeWord_of_faulted hl hf (statusReadOp_eq_false_iff.mpr hop), rfl, fun _ => rfl,
        (if_pos ⟨hf, hop⟩).symm⟩
    · have hread : s.fault = true → statusReadOp (opOf w) = true := fun hf =>
        eq_true_of_ne_false fun hop => hfaulted ⟨hf, statusReadOp_eq_false_iff.mp hop⟩
      rw [if_neg hfaulted]
      cases hd : decode w with
      | error e =>
        have hok : (s.fault && !statusReadOp (opOf w)) = false := by simpa using hread
        exact ⟨_, _, executeWord_of_decode_error hl hok hd, rfl, fun _ => rfl,
          (if_pos (illegalWord_iff.mpr ⟨e, hd⟩)).symm⟩
      | ok i =>
        have hlegal : ¬ Safety.illegalWord w = true := by simp [illegalWord_iff, hd]
        obtain ⟨r, hr, hsound, hstatus⟩ := instrNext_rsp fun hf => statusRead_of_decode hd (hread hf)
        rw [if_neg hlegal]
        rw [← bucketOperand_eq_bucketIndexOf hd] at hstatus
        exact ⟨_, r, (executeWord_of_decode_ok hd).trans (exec_legal hl i), hr, hsound, hstatus⟩
  · exact ⟨_, executeWord_illegal_of_ready hl hf (decode_of_mismatch (o := .binc) (by decide) (by decide)), rfl, hf⟩

/-! ### ILLEGAL (R122) -/

/-- The pending response plays no part in a word: another in its place changes nothing. -/
theorem executeWord_respond (st : Status) (v : Value) (w : CmdWord) :
    executeWord w (respond st v s) = executeWord w s := by
  unfold executeWord
  split
  · exact exec_respond st v _
  · rfl

/-- Settles O12: an illegal word only responds, and the response it leaves plays no part in the next word. -/
theorem illegalIsNotSticky : Obligations.IllegalIsNotSticky := by
  intro w w' s hl hf hw
  obtain ⟨e, hd⟩ := illegalWord_iff.mp hw
  exact ⟨_, executeWord_illegal_of_ready hl hf hd, hf, executeWord_respond .illegal 0 w'⟩

/-! ### The faulted state (R127 to R129) -/

/-- A faulted instance answers FAULTED to every command but the status reads. -/
theorem faultedNext_of_not_statusRead {i : Instr} (hstat : i ≠ .rdstat) (hinfo : i ≠ .rdfinfo) :
    faultedNext s i = respond .faulted 0 s := by
  cases i with
  | rdstat => exact absurd rfl hstat
  | rdfinfo => exact absurd rfl hinfo
  | test | add | testadd | testrem | reset | cap | krd | cnt | bget | binc | breset => rfl

/-- A word of a row with a non-zero reserved bit does not decode (30_encoding.md R64). -/
theorem decode_of_reservedBits {w : CmdWord} {o : Opcode} (hop : opOf w = o.code)
    (hbits : w.extractLsb' 8 (o.format.fixedBits - 8) ≠ 0) : decode w = .error (.reservedBits (opOf w)) := by
  refine decode_of_mismatch (hop ▸ ofByte_code o) fun hm => ?_
  obtain ⟨-, hzero⟩ := (masked_eq_matchBits_iff o w).mp hm
  exact hbits ((Format.reservedZero_iff _ _).mp hzero)

/-- A status read with a reserved bit set does not decode: its format reserves bits 127:8. -/
theorem decode_of_statusRead_reservedBits {w : CmdWord} (hop : opOf w = 0x20 ∨ opOf w = 0x21)
    (hbits : w.extractLsb' 8 120 ≠ 0) : decode w = .error (.reservedBits (opOf w)) := by
  obtain hop | hop := hop
  · exact decode_of_reservedBits (o := .rdstat) hop hbits
  · exact decode_of_reservedBits (o := .rdfinfo) hop hbits

/-- Settles O13: FAULTED by the first check of R62, the status reads by their meaning, ILLEGAL by their reserved bits. -/
theorem faultedStateAnswersFaulted : Obligations.FaultedStateAnswersFaulted := by
  intro s hl hf
  refine ⟨hf, fun w hstat hinfo => ?_, fun i hstat hinfo => ?_, ?_, ?_, fun w hop hbits => ?_⟩
  · exact executeWord_of_faulted hl hf (statusReadOp_eq_false_iff.mpr ⟨hstat, hinfo⟩)
  · exact (exec_faultedNext hl hf i).trans (congrArg _ (faultedNext_of_not_statusRead hstat hinfo))
  · exact (executeWord_of_decode_ok (decode_encode .rdstat)).trans (exec_rdstat hl)
  · exact (executeWord_of_decode_ok (decode_encode .rdfinfo)).trans (exec_rdfinfo hl)
  · have hread : statusReadOp (opOf w) = true := by obtain h | h := hop <;> rw [h] <;> rfl
    exact executeWord_of_decode_error hl (by simp [hread]) (decode_of_statusRead_reservedBits hop hbits)

/-- The instance is still faulted by the fault before, and its buckets and COUNT are as before. -/
abbrev FaultKept (s t : State) : Prop :=
  t.fault = true ∧ t.cause = s.cause ∧ t.finfo = s.finfo ∧ t.mem = s.mem ∧ t.count = s.count

/-- Two stretches of a run that keep the fault. -/
theorem FaultKept.trans (h : FaultKept s t) (h' : FaultKept t u) : FaultKept s u := by
  obtain ⟨-, hcause, hfinfo, hmem, hcount⟩ := h
  obtain ⟨hf, hcause', hfinfo', hmem', hcount'⟩ := h'
  exact ⟨hf, hcause'.trans hcause, hfinfo'.trans hfinfo, hmem'.trans hmem, hcount'.trans hcount⟩

/-- Responding keeps the fault. -/
theorem faultKept_respond (hf : s.fault = true) (st : Status) (v : Value) : FaultKept s (respond st v s) :=
  ⟨hf, rfl, rfl, rfl, rfl⟩

/-- The handshake keeps the fault. -/
theorem faultKept_readied (hf : s.fault = true) : FaultKept s (readied s) :=
  ⟨(readied_fault s).trans hf, readied_cause s, readied_finfo s, readied_mem s, readied_count s⟩

/-- Every word keeps the fault, as it only responds. -/
theorem faultKept_wordNext (hf : s.fault = true) (w : CmdWord) : FaultKept s (wordNext s w) := by
  unfold wordNext
  split
  · next i _ =>
    obtain ⟨st, v, -, e⟩ := faultedNext_eq_respond s i
    rw [instrNext_faulted hf, e]
    exact faultKept_respond hf st v
  · exact faultKept_respond hf _ _

/-- Every port event without `rst` keeps the fault: the handshake does, and so does an accepted word after it. -/
theorem step_faultKept (hl : s.cfg.legal) (hf : s.fault = true) (hrst : (currentInput s).rst = false) :
    ∃ t, step s = .next t ∧ FaultKept s t := by
  have hready := faultKept_readied hf
  cases ha : accepts s with
  | true =>
    exact ⟨_, (step_of_accepts hl hrst ha).trans (executeWord_legal (by rwa [readied_cfg]) _),
      hready.trans (faultKept_wordNext (by rwa [readied_fault]) _)⟩
  | false => exact ⟨_, step_of_waits hl hrst ha, hready⟩

/-- Settles O15: a command only responds, and only the port event with `rst` is a hardware reset. -/
theorem faultLastsUntilHardwareReset : Obligations.FaultLastsUntilHardwareReset := by
  refine fun s hl hf => ⟨fun i t h => ?_, step_faultKept hl hf, fun hrst => ⟨_, step_of_rst hl hrst, rfl, rfl, rfl⟩⟩
  obtain ⟨st, v, e⟩ := exec_faulted hl hf i
  cases e.symm.trans h
  exact faultKept_respond hf st v

/-! ### An invalid configuration (R131) -/

/-- Within legal bounds a configuration is invalid in exactly the ways R131 lists. -/
theorem not_legal_iff {c : Config} (hb : c.boundsLegal) :
    ¬ c.legal ↔ c.m.toNat = 0 ∨ c.mMax.toNat < c.m.toNat ∨ c.k.toNat = 0 ∨ c.kMax.toNat < c.k.toNat ∨
      c.b.toNat = 0 ∨ 8 < c.b.toNat := by
  rw [Config.legal, and_iff_right hb]
  omega

/-- Construction gives the reset state of a legal configuration. -/
theorem construct_of_legal {c : Config} (hl : c.legal) : construct c = .next (State.resetWith c) := if_pos hl

/-- Construction refuses the configurations that are not legal, and only those. -/
theorem construct_refused_iff {c : Config} : construct c = .refused .invalidConfiguration ↔ ¬ c.legal :=
  ⟨fun h hl => (nomatch (construct_of_legal hl).symm.trans h), fun hl => if_neg hl⟩

/-- A port event is refused under an invalid configuration. -/
theorem step_of_illegal (hl : ¬ s.cfg.legal) : step s = .refused .invalidConfiguration := whenLegal_of_illegal _ hl

/-- Settles O18: construction, commands and port events all check that the configuration is legal. -/
theorem invalidConfigurationRefused : Obligations.InvalidConfigurationRefused := by
  refine fun c hb => ⟨construct_of_legal, (not_legal_iff hb).symm.trans construct_refused_iff.symm, ?_⟩
  rintro hl s i rfl
  exact ⟨exec_of_illegal hl i, step_of_illegal hl⟩

end Sys2Proof.Machine
end

section
/-! SUPPORT. Reset and hazards (70_reset_and_hazards.md): a reset with a command in flight (O20), the configuration (O31),
RESET against hardware reset (O53), and the port event without a command (O23). -/

namespace Sys2Proof.Machine

variable {s t : State}

/-! ### Hardware reset (R139, R141, R142) -/

/-- Hardware reset gives the reset state of its configuration (10_state.md R33). -/
theorem sameArch_hardReset_resetWith (s : State) : Safety.SameArch (hardReset s) (State.resetWith s.cfg) :=
  ⟨rfl, fun _ _ => rfl, rfl, rfl, rfl, rfl⟩

/-- Hardware reset forgets everything but the configuration. -/
theorem sameArch_hardReset (h : t.cfg = s.cfg) : Safety.SameArch (hardReset t) (hardReset s) where
  cfg := h
  bkt j _ := (bkt_of_mem_nil (hardReset_mem t) j).trans (bkt_of_mem_nil (hardReset_mem s) j).symm
  count := rfl
  fault := rfl
  cause := rfl
  finfo := rfl

/-- Settles O20: the word leaves configuration, inputs and record alone, and a hardware reset keeps nothing else. -/
theorem resetDiscardsCommandInFlight : Obligations.ResetDiscardsCommandInFlight := by
  intro s t w hl h hrst
  obtain ⟨-, rfl⟩ := eq_wordNext_of_executeWord h
  obtain ⟨hcfg, hin, hdel⟩ := sameHost_wordNext (s := s) w
  have hinput : currentInput (wordNext s w) = currentInput s := congrArg (List.headD · PortIn.idle) hin
  exact ⟨_, _, step_of_rst (hcfg ▸ hl) (hinput ▸ hrst), step_of_rst hl hrst, sameArch_hardReset hcfg,
    hcfg ▸ sameArch_hardReset_resetWith (takeInput (wordNext s w)), rfl, hdel, congrArg List.tail hin⟩

/-- Settles O31: hardware reset, the handshake and every word keep the configuration. -/
theorem configurationNeverChanges : Obligations.ConfigurationNeverChanges := fun _ _ => step_cfg

/-- RESET on a ready instance of the invariant: no byte lies past the end of the storage, so zeroing empties it, and CAUSE
and FINFO, which RESET does not write, are 0 already. -/
theorem sameArch_reset_hardReset (h : Safety.Inv s) (hf : s.fault = false) :
    Safety.SameArch (readyNext s .reset) (hardReset s) := by
  obtain ⟨hcause, hfinfo⟩ := h.faultCoherent.1 hf
  have hmem : (readyNext s .reset).mem = [] := zeroAll_mem_nil h.memInside
  exact ⟨rfl, fun j _ => (bkt_of_mem_nil hmem j).trans (bkt_of_mem_nil (hardReset_mem s) j).symm, rfl, hf, hcause, hfinfo⟩

/-- Settles O53: ready, both resets leave an empty storage; faulted, RESET only answers FAULTED. -/
theorem resetMatchesHardwareReset : Obligations.ResetMatchesHardwareReset := fun _ h =>
  ⟨fun hf => ⟨_, exec_ready h.legal hf .reset, sameArch_reset_hardReset h hf, zeroAll_mem_nil h.memInside⟩,
    fun hf => exec_faultedNext h.legal hf .reset⟩

/-! ### The port event without a command (R139, R78) -/

/-- The handshake moves the response, the inputs and the record, and nothing else. -/
theorem readied_eq (s : State) :
    readied s = { s with rsp := (readied s).rsp, inputs := s.inputs.tail, delivered := (readied s).delivered } := by
  unfold readied deliver
  split <;> rfl

/-- Settles O23: no word is accepted where none is presented, so the event is the handshake alone. -/
theorem idleEventChangesNoState : Obligations.IdleEventChangesNoState := by
  intro s hl hrst hvalid
  have ha : accepts s = false := by simp [accepts, hvalid]
  refine ⟨readied s, step_of_waits hl hrst ha, readied_eq s, ?_⟩
  obtain ⟨hrsp, hdel, -⟩ | ⟨r, hr, -, hnone, hdel⟩ := readied_rsp s
  · exact .inl ⟨hrsp, hdel⟩
  · exact .inr ⟨r, hr, hnone, hdel⟩

end Sys2Proof.Machine
end
